-- ==== Sys2Proof/Word.lean ====
section
/-! DEFINITION. The fixed widths of the block (spec/00_scope.md R6, R8; spec/30_encoding.md R54). -/

namespace Sys2Proof

/-- A frame byte, an address, a function code: 8 bits (R6). -/
abbrev Byte := BitVec 8

/-- The CRC register, a `write_u16_be` value, a 16-bit read port: 16 bits (R6, R17). -/
abbrev Half := BitVec 16

/-- The operand field `arg` of a command word, and a `write_i32_be` value: 32 bits (R6, R54). -/
abbrev Arg := BitVec 32

/-- The opcode field `op` of a command word: 8 bits (R54). -/
abbrev Opcode := BitVec 8

/-- A command word: 40 bits, in parallel (R8, R53). -/
abbrev CmdWord := BitVec 40

end Sys2Proof
end

