-- ==== Sys2Proof/Config.lean ====
section
/-! DEFINITION. The parameters of spec/00_scope.md R7 and the free values of spec/93_implementation_defined.md.

`FRAME_CAP` is held in State (`State.frameCap`), so that every statement is made for all capacities.
`CMD_LATENCY` and `PLATFORM_BASE` have no constant here: no rule of the block depends on the first (R118), and the
second lies outside the block (P3).  The three constants below have no body: nothing can be proved about a value of
theirs. -/

namespace Sys2Proof.Config

/-- R7: the least capacity, the source's "minimum viable address+function+CRC". -/
def frameCapMin : Nat := 4

/-- R7: the greatest capacity. -/
def frameCapMax : Nat := 65535

/-- R7, D10: the recommended capacity.  The parameter is OPEN; this is the value State.reset takes.
DESIGN CHOICE (log entry 1). -/
def frameCapAtReset : Nat := 256

/-- U1 (R20, R35): the byte the buffer holds at an index that nothing has written since a reset.
The arguments are the number of resets before it and the index.  FREE VALUE (log entry 4). -/
opaque fbufAfterReset : Nat → Nat → Byte

/-- U2 (R31, R90): what the FRAME port answers at an index at or above `flen`, a fresh draw on each read.
The argument numbers the draws.  FREE VALUE (log entry 5). -/
opaque frameDraw : Nat → Byte

/-- U4 (R114): which of the words offered during one wait is accepted.
The argument numbers the draws.  FREE VALUE (log entry 6). -/
opaque wordChoice : Nat → Nat

end Sys2Proof.Config
end

