-- ==== Sys2Proof/Syntax.lean ====
section
/-! DEFINITION. The commands (spec/30_encoding.md R57), what the host can do at the block's ports
(spec/10_state.md R15 to R17), and the lines of the spec's assembler (R63, R64). -/

namespace Sys2Proof

/-- The eight commands, one constructor per row of spec/opcode_table.json.  An operand has the width of its
field (R55), so every term of this type is well formed. -/
inductive Instr where
  /-- CRC_INIT, form N (R69). -/
  | crcInit
  /-- CRC_BYTE, form B (R70). -/
  | crcByte (b : Byte)
  /-- CRC_CMP, form H (R72). -/
  | crcCmp (h : Half)
  /-- ENC_NEW, form A (R79). -/
  | encNew (adr fc : Byte)
  /-- ENC_U16, form H (R81). -/
  | encU16 (h : Half)
  /-- ENC_I32, form W (R82). -/
  | encI32 (w : Arg)
  /-- ENC_FINAL, form N (R84). -/
  | encFinal
  /-- ENC_U8, form B (R83). -/
  | encU8 (b : Byte)
  deriving DecidableEq, Repr

/-- The read ports (R17). -/
inductive ReadPort where
  /-- `crc_out[15:0]`. -/
  | crc
  /-- `status[15:0]`. -/
  | status
  /-- `len_out[15:0]`. -/
  | len
  /-- `eop_out[7:0]`. -/
  | eop
  /-- `frame_data[7:0]` with `frame_addr[15:0]` driven to `addr`. -/
  | frame (addr : Half)
  deriving DecidableEq, Repr

/-- What a read port answers: a 16-bit or an 8-bit value (R17). -/
inductive ReadData where
  | half (v : Half)
  | byte (v : Byte)
  deriving DecidableEq, Repr

/-- One thing that happens at the block's inputs.  The model is untimed: one event is one step (R16, log entry 2). -/
inductive HostEvent where
  /-- The host raises `cmd_valid` and keeps it up until the block accepts.  `word` is the word it offers first and
  `changed` the words it puts on `cmd_word` afterwards, before the acceptance: none when it holds the word stable
  (R16, R114). -/
  | offer (word : CmdWord) (changed : List CmdWord)
  /-- The host raises `cmd_valid` and takes it back before the acceptance: it has offered nothing (R114). -/
  | withdraw (word : CmdWord) (changed : List CmdWord)
  /-- The host holds `cmd_valid = 0` for a while (R107). -/
  | idle
  /-- The host reads a port (R17, R32). -/
  | read (port : ReadPort)
  /-- `rst` is 1 at a clock edge (R108). -/
  | assertRst
  /-- `rst` returns to 0, and `cmd_ready` to 1 (R35, R109). -/
  | releaseRst
  deriving DecidableEq, Repr

/-- One line of the spec's assembler (R63, R64), after its text is read: operands are numbers. -/
inductive AsmLine where
  | crcInit
  | crcByte (b : Nat)
  | crcCmp (h : Nat)
  | encNew (adr fc : Nat)
  | encU16 (h : Nat)
  /-- `enc.i32 w`: a negative `w` is taken as its 32-bit two's-complement pattern. -/
  | encI32 (w : Int)
  | encFinal
  | encU8 (b : Nat)
  /-- `.cmd 0xNNNNNNNNNN`: the given word, verbatim, which may be reserved. -/
  | cmd (w : Nat)
  /-- `crc.block b0, b1, ..., bn` (R64). -/
  | crcBlock (bytes : List Nat)
  /-- `crc.check r0, r1` (R64). -/
  | crcCheck (r0 r1 : Nat)
  /-- `read crc`, `read status`, `read len`, `read eop`. -/
  | readCrc
  | readStatus
  | readLen
  | readEop
  /-- `read frame[i]`. -/
  | readFrame (i : Nat)
  /-- A line `; text`. -/
  | comment (text : String)
  deriving DecidableEq, Repr

end Sys2Proof
end

