-- ==== Sys2Proof/WellFormed.lean ====
section
/-! DEFINITION. What makes a command word legal (spec/30_encoding.md R58), an assembler line correct (R63, R64) and a
capacity allowed (spec/00_scope.md R7).  A term of `Instr` needs no check: its operands have the widths of their
fields. -/

namespace Sys2Proof

/-- The `legal` verdict of R58, row by row as the rule writes it.  It is written apart from the decoder, so that the
two can be held against each other. -/
def legal (cw : CmdWord) : Bool :=
  match (cw.extractLsb' 32 8).toNat with
  | 0x01 => cw.extractLsb' 0 32 == 0#32
  | 0x02 => cw.extractLsb' 8 24 == 0#24
  | 0x03 => cw.extractLsb' 16 16 == 0#16
  | 0x10 => cw.extractLsb' 16 16 == 0#16
  | 0x11 => cw.extractLsb' 16 16 == 0#16
  | 0x12 => true
  | 0x13 => cw.extractLsb' 0 32 == 0#32
  | 0x14 => cw.extractLsb' 8 24 == 0#24
  | _ => false

/-- The operand forms (R55). -/
inductive Form where
  | N
  | B
  | H
  | W
  | A
  deriving DecidableEq, Repr

/-- The reserved operand bits of a form, as a mask (R55). -/
def Form.reserved : Form → Arg
  | .N => 0xFFFFFFFF#32
  | .B => 0xFFFFFF00#32
  | .H => 0xFFFF0000#32
  | .W => 0x00000000#32
  | .A => 0xFFFF0000#32

/-- The opcode map (R57): each defined opcode with its form. -/
def opcodeForms : List (Opcode × Form) :=
  [(0x01#8, .N), (0x02#8, .B), (0x03#8, .H), (0x10#8, .A), (0x11#8, .H), (0x12#8, .W), (0x13#8, .N), (0x14#8, .B)]

/-- R7: the allowed capacities. -/
def Config.frameCapOk (n : Nat) : Bool := decide (frameCapMin ≤ n) && decide (n ≤ frameCapMax)

/-- An unsigned operand fits a field of `width` bits. -/
def fits (width v : Nat) : Bool := decide (v < 2 ^ width)

/-- The operand of `enc.i32` fits: an unsigned 32-bit number, or a negative number with a 32-bit two's-complement
pattern.  DEDUCED from R63 and R12 (log entry 13). -/
def fitsI32 (w : Int) : Bool := decide (-2 ^ 31 ≤ w) && decide (w < 2 ^ 32)

/-- R63: "An operand that does not fit its field is an assembly error, not a word."  `crc.block` has at least one
byte, as R64 writes it. -/
def AsmLine.wellFormed : AsmLine → Bool
  | .crcByte b => fits 8 b
  | .crcCmp h => fits 16 h
  | .encNew adr fc => fits 8 adr && fits 8 fc
  | .encU16 h => fits 16 h
  | .encI32 w => fitsI32 w
  | .encU8 b => fits 8 b
  | .cmd w => fits 40 w
  | .crcBlock bytes => !bytes.isEmpty && bytes.all (fits 8)
  | .crcCheck r0 r1 => fits 8 r0 && fits 8 r1
  | .readFrame i => fits 16 i
  | .crcInit => true
  | .encFinal => true
  | .readCrc => true
  | .readStatus => true
  | .readLen => true
  | .readEop => true
  | .comment _ => true

end Sys2Proof
end

