-- ==== Sys2Proof/Decode.lean ====
section
/-! DEFINITION. The decoder of spec/30_encoding.md R58, total on every 40-bit word, and after it the encoder (R55, R57)
and the assembler (R63 to R65). -/

namespace Sys2Proof

/-- `op = cw[39:32]` (R54). -/
def opOf (cw : CmdWord) : Opcode := cw.extractLsb' 32 8

/-- `arg = cw[31:0]` (R54). -/
def argOf (cw : CmdWord) : Arg := cw.extractLsb' 0 32

/-- `b = arg[7:0]` of form B (R55). -/
def fieldB (arg : Arg) : Byte := arg.extractLsb' 0 8

/-- `h = arg[15:0]` of form H (R55). -/
def fieldH (arg : Arg) : Half := arg.extractLsb' 0 16

/-- `adr = arg[15:8]` of form A (R55). -/
def fieldAdr (arg : Arg) : Byte := arg.extractLsb' 8 8

/-- `fc = arg[7:0]` of form A (R55). -/
def fieldFc (arg : Arg) : Byte := arg.extractLsb' 0 8

/-- The reserved bits `arg[31:8]` of form B are 0 (R55). -/
def clearB (arg : Arg) : Bool := arg.extractLsb' 8 24 == 0#24

/-- The reserved bits `arg[31:16]` of the forms H and A are 0 (R55). -/
def clearH (arg : Arg) : Bool := arg.extractLsb' 16 16 == 0#16

/-- The reserved bits `arg[31:0]` of form N are 0 (R55). -/
def clearN (arg : Arg) : Bool := arg == 0#32

/-- Why a word is no command.  Both raise ILL (R92). -/
inductive DecodeError where
  /-- The opcode is none of the eight (R59). -/
  | reservedOpcode
  /-- The opcode is defined and a reserved operand bit is set (R60). -/
  | reservedBits
  deriving DecidableEq, Repr

/-- What the decoder makes of a word. -/
inductive Decoded where
  | command (i : Instr)
  | illegal (why : DecodeError)
  deriving DecidableEq, Repr

/-- The command `i`, if the reserved bits of its form are clear (R60). -/
def ifClear (clear : Bool) (i : Instr) : Decoded :=
  if clear then .command i else .illegal .reservedBits

/-- R58: every 40-bit word selects exactly one command or is illegal. -/
def decode (cw : CmdWord) : Decoded :=
  let op := opOf cw
  let arg := argOf cw
  if op = 0x01#8 then ifClear (clearN arg) .crcInit
  else if op = 0x02#8 then ifClear (clearB arg) (.crcByte (fieldB arg))
  else if op = 0x03#8 then ifClear (clearH arg) (.crcCmp (fieldH arg))
  else if op = 0x10#8 then ifClear (clearH arg) (.encNew (fieldAdr arg) (fieldFc arg))
  else if op = 0x11#8 then ifClear (clearH arg) (.encU16 (fieldH arg))
  else if op = 0x12#8 then .command (.encI32 arg)
  else if op = 0x13#8 then ifClear (clearN arg) .encFinal
  else if op = 0x14#8 then ifClear (clearB arg) (.encU8 (fieldB arg))
  else .illegal .reservedOpcode

/-- The 40-bit word that the host's numbering gives: bit 0 of `w` is bit 0 of the word, and bits from `nbits` on are 0.
The word is one parallel value (R53), so no byte order enters. -/
def tableWord (nbits w : Nat) : CmdWord := BitVec.ofNat 40 (w % 2 ^ nbits)

/-- The command the decoder reads from a row's word of spec/opcode_table.json. -/
def decodeTableWord (nbits w : Nat) : Option Instr :=
  match decode (tableWord nbits w) with
  | .command i => some i
  | .illegal _ => none

/-! ### The encoder -/

/-- `op ++ arg` (R54). -/
def wordOf (op : Opcode) (arg : Arg) : CmdWord := op ++ arg

/-- The opcode of each command (R57). -/
def Instr.opcode : Instr → Opcode
  | .crcInit => 0x01#8
  | .crcByte _ => 0x02#8
  | .crcCmp _ => 0x03#8
  | .encNew _ _ => 0x10#8
  | .encU16 _ => 0x11#8
  | .encI32 _ => 0x12#8
  | .encFinal => 0x13#8
  | .encU8 _ => 0x14#8

/-- The operand field of each command: its sub-fields in their places and 0 in every reserved bit (R55). -/
def Instr.arg : Instr → Arg
  | .crcInit => 0#32
  | .crcByte b => 0#24 ++ b
  | .crcCmp h => 0#16 ++ h
  | .encNew adr fc => 0#16 ++ adr ++ fc
  | .encU16 h => 0#16 ++ h
  | .encI32 w => w
  | .encFinal => 0#32
  | .encU8 b => 0#24 ++ b

/-- The one word of a command. -/
def encode (i : Instr) : CmdWord := wordOf i.opcode i.arg

/-! ### The assembler -/

/-- The word of a command, offered and held stable until it is accepted. -/
def offerOf (i : Instr) : HostEvent := .offer (encode i) []

/-- The events of a correct line: R63's table, and R64's expansions.  A comment is no event. -/
def AsmLine.expand : AsmLine → List HostEvent
  | .crcInit => [offerOf .crcInit]
  | .crcByte b => [offerOf (.crcByte (BitVec.ofNat 8 b))]
  | .crcCmp h => [offerOf (.crcCmp (BitVec.ofNat 16 h))]
  | .encNew adr fc => [offerOf (.encNew (BitVec.ofNat 8 adr) (BitVec.ofNat 8 fc))]
  | .encU16 h => [offerOf (.encU16 (BitVec.ofNat 16 h))]
  | .encI32 w => [offerOf (.encI32 (BitVec.ofInt 32 w))]
  | .encFinal => [offerOf .encFinal]
  | .encU8 b => [offerOf (.encU8 (BitVec.ofNat 8 b))]
  | .cmd w => [.offer (BitVec.ofNat 40 w) []]
  | .crcBlock bytes => offerOf .crcInit :: bytes.map (fun b => offerOf (.crcByte (BitVec.ofNat 8 b)))
  | .crcCheck r0 r1 => [offerOf (.crcCmp (BitVec.ofNat 16 (r1 <<< 8 ||| r0)))]
  | .readCrc => [.read .crc]
  | .readStatus => [.read .status]
  | .readLen => [.read .len]
  | .readEop => [.read .eop]
  | .readFrame i => [.read (.frame (BitVec.ofNat 16 i))]
  | .comment _ => []

/-- A line's events, or none where an operand does not fit its field (R63). -/
def assembleLine (l : AsmLine) : Option (List HostEvent) :=
  if l.wellFormed then some l.expand else none

/-- A program: its lines in order, or none where one of them is an assembly error. -/
def assemble : List AsmLine → Option (List HostEvent)
  | [] => some []
  | l :: ls =>
    match assembleLine l, assemble ls with
    | some es, some rest => some (es ++ rest)
    | _, _ => none

/-- One hex digit. -/
def hexDigit (n : Nat) : Char := if n < 10 then Char.ofNat (48 + n) else Char.ofNat (55 + n)

/-- The last `k` hex digits of a number, most significant first. -/
def hexDigits : Nat → Nat → List Char
  | 0, _ => []
  | k + 1, n => hexDigits k (n / 16) ++ [hexDigit (n % 16)]

/-- R65: a word is spelled `0x`, the 2 hex digits of `op`, `_`, and the 8 hex digits of `arg`. -/
def spellWord (cw : CmdWord) : List Char :=
  ['0', 'x'] ++ hexDigits 2 (opOf cw).toNat ++ ['_'] ++ hexDigits 8 (argOf cw).toNat

end Sys2Proof
end

