-- ==== Sys2Proof/Machine/State.lean ====
section
/-! DEFINITION. The state of the block as plain data (spec/10_state.md), the reasons a step can stop, and reset. -/

namespace Sys2Proof.Machine

/-- The encoder state `estate` (R22).  The value 3 is never produced (U5), so it has no constructor. -/
inductive EncState where
  /-- No frame has been started since reset. -/
  | idle
  /-- A frame is started and not yet finalized. -/
  | build
  /-- The frame is finalized: the CRC is appended. -/
  | done
  deriving DecidableEq, Repr

/-- The three errors (R91 to R94). -/
inductive ErrKind where
  | ill
  | seq
  | ovf
  deriving DecidableEq, Repr

/-- The error record (R25 to R27). -/
structure ErrorRecord where
  /-- Sticky bit `err_ill`. -/
  ill : Bool
  /-- Sticky bit `err_seq`. -/
  seq : Bool
  /-- Sticky bit `err_ovf`. -/
  ovf : Bool
  /-- `ecause`: the first error since reset; `none` is the code 0 (R26). -/
  cause : Option ErrKind
  /-- `eop`: the opcode of the command that raised the first error (R27). -/
  eop : Opcode
  deriving DecidableEq, Repr

/-- R35: no error. -/
def ErrorRecord.clear : ErrorRecord :=
  { ill := false, seq := false, ovf := false, cause := none, eop := 0x00#8 }

/-- The frame buffer (R20): the bytes written since reset, by index.  An index that is not listed holds the
unspecified byte of U1 (`Config.fbufAfterReset`). -/
abbrev Memory := List Host.Cell

/-- The canonical form: indices strictly rising.  An unlisted index has no value of its own, so no entry can equal
it. -/
abbrev Memory.wf (m : Memory) : Prop := m.Pairwise (fun x y => x.1 < y.1)

/-- The block. -/
structure State where
  /-- The parameter FRAME_CAP (R7).  No event changes it. -/
  frameCap : Nat
  /-- The CRC register `crc` (R19). -/
  crc : Half
  /-- The CRC match flag `match` (R23). -/
  crcMatch : Bool
  /-- The frame buffer `fbuf` (R20). -/
  fbuf : Memory
  /-- The frame length `flen` (R21). -/
  flen : Nat
  /-- The encoder state `estate` (R22). -/
  estate : EncState
  /-- The sticky bits, `ecause` and `eop` (R25 to R27). -/
  err : ErrorRecord
  /-- `cmd_ready` (R16, R35): 0 while reset is asserted.  Its low time after an acceptance lies between two steps. -/
  cmdReady : Bool
  /-- THE MODEL'S OWN: what the host will do at the ports, the next first (R15; log entry 3). -/
  events : List HostEvent
  /-- THE MODEL'S OWN: how many free values have been drawn so far (log entry 7). -/
  draws : Nat
  /-- THE MODEL'S OWN: how many resets there have been, which tells the buffer's unspecified contents apart
  (log entry 7). -/
  resets : Nat
  deriving DecidableEq, Repr

/-- Why the machine stops.  The block itself never stops (R91), and no state that reset reaches raises this. -/
inductive Fault where
  /-- A write to an index of the frame buffer at or above FRAME_CAP, which does not exist (R37).  Raised by the writes
  of ENC_NEW and ENC_FINAL, only in a state that breaks R36 or R7.  Safe. -/
  | outsideFrameBuffer
  deriving DecidableEq, Repr

/-- Why a command has no meaning.  Every command of the table has one, so nothing raises this. -/
inductive Refusal where
  /-- The command has no meaning yet.  Raised by a refused arm of `exec`, of which there is none.  Safe. -/
  | notModelled (mnemonic : String)
  deriving DecidableEq, Repr

/-- R35: the state after reset of a block of capacity `cap`, with `rst` released and nothing offered. -/
def State.resetOf (cap : Nat) : State :=
  { frameCap := cap
    crc := 0xFFFF#16
    crcMatch := false
    fbuf := []
    flen := 0
    estate := .idle
    err := .clear
    cmdReady := true
    events := []
    draws := 0
    resets := 0 }

/-- The block right after reset, at the recommended capacity (R35, R7; log entry 1). -/
def State.reset : State := State.resetOf Config.frameCapAtReset

end Sys2Proof.Machine
end

