-- ==== Sys2Proof/Machine/Flags.lean ====
section
/-! DEFINITION. The match flag (spec/40_crc.md R72), the error record (spec/60_exceptions.md R96) and the STATUS layout
(spec/10_state.md R28). -/

namespace Sys2Proof.Machine

/-- R72: `match <- (crc == h) ? 1 : 0`. -/
def matchFlag (crc h : Half) : Bool := crc == h

/-- The sticky bit of an error (R92 to R94). -/
def ErrorRecord.sticky (r : ErrorRecord) : ErrKind → Bool
  | .ill => r.ill
  | .seq => r.seq
  | .ovf => r.ovf

/-- Set the sticky bit of an error. -/
def ErrorRecord.setSticky (r : ErrorRecord) : ErrKind → ErrorRecord
  | .ill => { r with ill := true }
  | .seq => { r with seq := true }
  | .ovf => { r with ovf := true }

/-- R96: `raise E(op)` sets the sticky bit of E; the first error since reset also sets `ecause` and `eop`. -/
def ErrorRecord.record (r : ErrorRecord) (e : ErrKind) (op : Opcode) : ErrorRecord :=
  match r.cause with
  | none => { r.setSticky e with cause := some e, eop := op }
  | some _ => r.setSticky e

/-- The code of `estate` in STATUS (R22). -/
def EncState.code : EncState → Half
  | .idle => 0#16
  | .build => 1#16
  | .done => 2#16

/-- The code of `ecause` in STATUS (R26). -/
def causeCode : Option ErrKind → Half
  | none => 0#16
  | some .ill => 1#16
  | some .seq => 2#16
  | some .ovf => 3#16

/-- A bit as a 16-bit value. -/
def bit (b : Bool) : Half := if b then 1#16 else 0#16

/-- R28: `STATUS = (ecause << 8) | (err_ovf << 6) | (err_seq << 5) | (err_ill << 4) | (match << 2) | estate`. -/
def statusWord (r : ErrorRecord) (crcMatch : Bool) (e : EncState) : Half :=
  (causeCode r.cause <<< 8) ||| (bit r.ovf <<< 6) ||| (bit r.seq <<< 5) ||| (bit r.ill <<< 4) |||
    (bit crcMatch <<< 2) ||| e.code

end Sys2Proof.Machine
end

