-- ==== Sys2Proof/Machine/Operands.lean ====
section
/-! DEFINITION. The bytes an operand puts into the frame, in wire order (spec/20_memory.md R39, R40), and the reference
value of a received trailer (spec/30_encoding.md R56). -/

namespace Sys2Proof.Machine

/-- R40: a 16-bit payload field, most significant byte first. -/
def be16 (v : Half) : List Byte := [v.extractLsb' 8 8, v.extractLsb' 0 8]

/-- R40: a 32-bit payload field, most significant byte first. -/
def be32 (v : Arg) : List Byte :=
  [v.extractLsb' 24 8, v.extractLsb' 16 8, v.extractLsb' 8 8, v.extractLsb' 0 8]

/-- R39: the CRC, low byte first. -/
def lowFirst (c : Half) : List Byte := [c.extractLsb' 0 8, c.extractLsb' 8 8]

/-- R56: the reference value of a trailer received as `r0` then `r1` is `r1 ++ r0`. -/
def trailerRef (r0 r1 : Byte) : Half := r1 ++ r0

end Sys2Proof.Machine
end

