-- ==== Sys2Proof/Machine/Ops.lean ====
section
/-! DEFINITION. The shared operations: the frame buffer (spec/00_scope.md R11, spec/20_memory.md), the CRC function
(spec/40_crc.md R67, R68), raising an error (spec/60_exceptions.md R96), the append of the encoder
(spec/41_encoder.md R80 to R83) and reset (spec/70_reset_and_hazards.md R108). -/

namespace Sys2Proof.Machine

/-! ### The frame buffer -/

/-- The byte written at an index, if one was. -/
def Memory.read? : Memory → Nat → Option Byte
  | [], _ => none
  | (a, b) :: m, i => if a = i then some b else Memory.read? m i

/-- Write one byte and keep the indices strictly rising. -/
def Memory.put : Memory → Nat → Byte → Memory
  | [], i, v => [(i, v)]
  | (a, b) :: m, i, v =>
    if i < a then (i, v) :: (a, b) :: m
    else if i = a then (i, v) :: m
    else (a, b) :: Memory.put m i v

/-- `MemRead(i, 1)` (R11).  A byte that nothing has written since reset is the free value of U1. -/
def memRead (s : State) (i : Nat) : Byte :=
  (s.fbuf.read? i).getD (Config.fbufAfterReset s.resets i)

/-- `MemWrite(i, 1, v)` (R11).  An index at or above FRAME_CAP does not exist (R37). -/
def memWrite (i : Nat) (v : Byte) (s : State) : Except Fault State :=
  if i < s.frameCap then .ok { s with fbuf := s.fbuf.put i v } else .error .outsideFrameBuffer

/-- Bytes written one after the other from index `i` up. -/
def memWriteAll : Nat → List Byte → State → Except Fault State
  | _, [], s => .ok s
  | i, b :: bs, s =>
    match memWrite i b s with
    | .ok t => memWriteAll (i + 1) bs t
    | .error f => .error f

/-- `fbuf[0:flen]`: the frame (R20, R86). -/
def frameBytes (s : State) : List Byte := (List.range s.flen).map (memRead s)

/-- The effect every encoder command that succeeds has (R46): bytes from index `i` up, a new `flen`, a new `estate`. -/
def writeFrame (i : Nat) (bytes : List Byte) (len : Nat) (e : EncState) (s : State) :
    Host.Outcome State Fault Refusal :=
  match memWriteAll i bytes s with
  | .ok t => .next { t with flen := len, estate := e }
  | .error f => .fault f

/-! ### The CRC function -/

/-- One of the 8 iterations of R68: shift right, then XOR `0xA001` when the bit shifted out was 1. -/
def crcShift (c : Half) : Half :=
  if c.getLsbD 0 then (c >>> 1) ^^^ 0xA001#16 else c >>> 1

/-- `k` iterations. -/
def crcShifts : Nat → Half → Half
  | 0, c => c
  | k + 1, c => crcShifts k (crcShift c)

/-- R68: the one-byte update. -/
def crcStep (c : Half) (b : Byte) : Half := crcShifts 8 (c ^^^ b.zeroExtend 16)

/-- The register after a sequence of bytes, from a given value. -/
def crcFrom (c : Half) (bytes : List Byte) : Half := bytes.foldl crcStep c

/-- R67: CRC-16/MODBUS of a byte sequence. -/
def crc16 (bytes : List Byte) : Half := crcFrom 0xFFFF#16 bytes

/-! ### Errors -/

/-- R96: an error is recorded, and nothing else changes.  This is the block's only "entry" (R98); there is no return
(R99). -/
def raiseError (e : ErrKind) (op : Opcode) (s : State) : State :=
  { s with err := s.err.record e op }

/-! ### The encoder's append -/

/-- R80: `n` more payload bytes leave the last 2 bytes of the buffer for the CRC (`flen + n ≤ FRAME_CAP - 2`). -/
def roomFor (n : Nat) (s : State) : Bool := decide (s.flen + n + 2 ≤ s.frameCap)

/-- The shape ENC_U16, ENC_I32 and ENC_U8 share (R81 to R83): SEQ outside BUILD, then OVF without room, then the bytes
at `flen`. -/
def appendPayload (op : Opcode) (bytes : List Byte) (s : State) : Host.Outcome State Fault Refusal :=
  if s.estate ≠ .build then .next (raiseError .seq op s)
  else if roomFor bytes.length s = false then .next (raiseError .ovf op s)
  else writeFrame s.flen bytes (s.flen + bytes.length) .build s

/-! ### Reset -/

/-- R108: `rst` is 1 at a clock edge.  Every state element takes its value of R35, the buffer's contents are
unspecified anew, and `cmd_ready` is 0.  The schedule of the host and the count of draws go on. -/
def applyReset (s : State) : State :=
  { State.resetOf s.frameCap with
    cmdReady := false
    events := s.events
    draws := s.draws
    resets := s.resets + 1 }

end Sys2Proof.Machine
end

