-- ==== Sys2Proof/Machine/Crc.lean ====
section
/-! DEFINITION. The CRC commands (spec/40_crc.md R69, R70, R72). -/

namespace Sys2Proof.Machine

/-- CRC_INIT (R69): `crc <- 0xFFFF`. -/
def execCrcInit (s : State) : Host.Outcome State Fault Refusal :=
  .next { s with crc := 0xFFFF#16 }

/-- CRC_BYTE (R70): `crc <- CrcStep(crc, b)`. -/
def execCrcByte (b : Byte) (s : State) : Host.Outcome State Fault Refusal :=
  .next { s with crc := crcStep s.crc b }

/-- CRC_CMP (R72): `match <- (crc == h) ? 1 : 0`.  A mismatch is not an error (R95). -/
def execCrcCmp (h : Half) (s : State) : Host.Outcome State Fault Refusal :=
  .next { s with crcMatch := matchFlag s.crc h }

end Sys2Proof.Machine
end

