-- ==== Sys2Proof/Machine/Encoder.lean ====
section
/-! DEFINITION. The frame-encoder commands (spec/41_encoder.md R79, R81 to R84). -/

namespace Sys2Proof.Machine

/-- ENC_NEW (R79): the address and the function code at indices 0 and 1, `flen <- 2`, `estate <- BUILD`; legal in every
state, and nothing is validated (R85). -/
def execEncNew (adr fc : Byte) (s : State) : Host.Outcome State Fault Refusal :=
  writeFrame 0 [adr, fc] 2 .build s

/-- ENC_U16 (R81): append a 16-bit field, big-endian. -/
def execEncU16 (h : Half) (s : State) : Host.Outcome State Fault Refusal :=
  appendPayload 0x11#8 (be16 h) s

/-- ENC_I32 (R82): append a 32-bit field, big-endian; the sign is never interpreted. -/
def execEncI32 (w : Arg) (s : State) : Host.Outcome State Fault Refusal :=
  appendPayload 0x12#8 (be32 w) s

/-- ENC_FINAL (R84): append `CRC16(fbuf[0:flen])` low byte first and close the frame; SEQ outside BUILD, so a second
finalize is an error (90_conflicts.md C1).  The `crc` register is neither read nor written (R76). -/
def execEncFinal (s : State) : Host.Outcome State Fault Refusal :=
  if s.estate ≠ .build then .next (raiseError .seq 0x13#8 s)
  else writeFrame s.flen (lowFirst (crc16 (frameBytes s))) (s.flen + 2) .done s

/-- ENC_U8 (R83): append one payload byte. -/
def execEncU8 (b : Byte) (s : State) : Host.Outcome State Fault Refusal :=
  appendPayload 0x14#8 [b] s

end Sys2Proof.Machine
end

