-- ==== Sys2Proof/Machine/Dispatch.lean ====
section
/-! DEFINITION. One arm per command. -/

namespace Sys2Proof.Machine

def exec (i : Instr) (s : State) : Host.Outcome State Fault Refusal :=
  match i with
  -- the CRC generator (spec/40_crc.md)
  | .crcInit => Sys2Proof.Machine.execCrcInit s
  | .crcByte b => Sys2Proof.Machine.execCrcByte b s
  | .crcCmp h => Sys2Proof.Machine.execCrcCmp h s
  -- the frame encoder (spec/41_encoder.md)
  | .encNew adr fc => Sys2Proof.Machine.execEncNew adr fc s
  | .encU16 h => Sys2Proof.Machine.execEncU16 h s
  | .encI32 w => Sys2Proof.Machine.execEncI32 w s
  | .encFinal => Sys2Proof.Machine.execEncFinal s
  | .encU8 b => Sys2Proof.Machine.execEncU8 b s

end Sys2Proof.Machine
end

