-- ==== Sys2Proof/Machine/Ports.lean ====
section
/-! DEFINITION. The read ports (spec/10_state.md R17, R28 to R32). -/

namespace Sys2Proof.Machine

/-- `crc_out` (R30). -/
def crcOut (s : State) : Half := s.crc

/-- `status` (R28). -/
def statusOut (s : State) : Half := statusWord s.err s.crcMatch s.estate

/-- `len_out`: `zext_16(flen)` (R29). -/
def lenOut (s : State) : Half := BitVec.ofNat 16 s.flen

/-- `eop_out` (R30). -/
def eopOut (s : State) : Byte := s.err.eop

/-- `frame_data` at `frame_addr` (R31): the frame's byte below `flen`, and a fresh draw from there on (U2, R90). -/
def frameOut (addr : Half) (s : State) : Byte :=
  if addr.toNat < s.flen then memRead s addr.toNat else Config.frameDraw s.draws

/-- What a read of a port answers. -/
def readPort (p : ReadPort) (s : State) : ReadData :=
  match p with
  | .crc => .half (crcOut s)
  | .status => .half (statusOut s)
  | .len => .half (lenOut s)
  | .eop => .byte (eopOut s)
  | .frame addr => .byte (frameOut addr s)

/-- The state after a read: a read changes nothing (R32).  A read at an unspecified index has used up one draw, so the
next one is a draw of its own. -/
def afterRead (p : ReadPort) (s : State) : State :=
  match p with
  | .frame addr => if addr.toNat < s.flen then s else { s with draws := s.draws + 1 }
  | .crc => s
  | .status => s
  | .len => s
  | .eop => s

/-- What the host reads in the step taken from this state, if that step is a read (R17). -/
def hostReads (s : State) : Option ReadData :=
  match s.events with
  | .read p :: _ => some (readPort p s)
  | _ => none

end Sys2Proof.Machine
end

