-- ==== Sys2Proof/Machine/Handshake.lean ====
section
/-! DEFINITION. What one event at the block's inputs does (spec/10_state.md R15, R16; spec/30_encoding.md R58;
spec/70_reset_and_hazards.md R108, R109, R114). -/

namespace Sys2Proof.Machine

/-- R58: perform an accepted word's command, or raise ILL with its opcode field. -/
def issue (cw : CmdWord) (s : State) : Host.Outcome State Fault Refusal :=
  match decode cw with
  | .command i => exec i s
  | .illegal _ => .next (raiseError .ill (opOf cw) s)

/-- U4 (R114): one of the words offered, never a mix of their bits.  A word held stable is the one accepted. -/
def acceptedWord (word : CmdWord) (changed : List CmdWord) (draw : Nat) : CmdWord :=
  match changed with
  | [] => word
  | _ :: _ => ((word :: changed)[Config.wordChoice draw % (word :: changed).length]?).getD word

/-- The count of draws after an acceptance: a word held stable needs none. -/
def drawsAfterOffer (changed : List CmdWord) (draws : Nat) : Nat :=
  match changed with
  | [] => draws
  | _ :: _ => draws + 1

/-- An offer that the host keeps up until it is accepted (R16).  While reset is asserted `cmd_ready` is 0, nothing is
accepted, and the word has no effect (R109). -/
def onOffer (word : CmdWord) (changed : List CmdWord) (s : State) : Host.Outcome State Fault Refusal :=
  if s.cmdReady then
    issue (acceptedWord word changed s.draws) { s with draws := drawsAfterOffer changed s.draws }
  else .next s

/-- One event. -/
def onEvent (e : HostEvent) (s : State) : Host.Outcome State Fault Refusal :=
  match e with
  | .offer word changed => onOffer word changed s
  | .withdraw _ _ => .next s
  | .idle => .next s
  | .read p => .next (afterRead p s)
  | .assertRst => .next (applyReset s)
  | .releaseRst => .next { s with cmdReady := true }

end Sys2Proof.Machine
end

