-- ==== Sys2Proof/Machine/Step.lean ====
section
/-! DEFINITION. One step: the next event at the block's inputs (log entries 2 and 3). -/

namespace Sys2Proof.Machine

/-- The host's next event takes place.  When the host does nothing more, `cmd_valid` stays 0 and the state is unchanged
for as long as that lasts (R107). -/
def step (s : State) : Host.Outcome State Fault Refusal :=
  match s.events with
  | [] => .next s
  | e :: rest => onEvent e { s with events := rest }

/-- The host offers this word next, and holds it, to a block that is not in reset. -/
def State.withFetchWord (s : State) (nbits w : Nat) : State :=
  { s with cmdReady := true, events := .offer (tableWord nbits w) [] :: s.events }

end Sys2Proof.Machine
end

