-- ==== Sys2Proof/Safety.lean ====
section
/-! DEFINITION. What a good state is (spec/10_state.md R36, spec/41_encoder.md R87, R88), and the terms the statements
use: runs of the host's events, the source's encoder as a function, and what a command writes. -/

namespace Sys2Proof.Machine

/-- The four bullets of R36. -/
structure State.RuleR36 (s : State) : Prop where
  idle_len : s.estate = .idle → s.flen = 0
  build_len : s.estate = .build → 2 ≤ s.flen ∧ s.flen ≤ s.frameCap - 2
  done_len : s.estate = .done → 4 ≤ s.flen ∧ s.flen ≤ s.frameCap ∧ crc16 (frameBytes s) = 0x0000#16
  cause_iff : s.err.cause = none ↔ s.err.ill = false ∧ s.err.seq = false ∧ s.err.ovf = false

/-- The invariant: R36, and with it the bounds of R7, the canonical form of the buffer inside its index space (R37),
every byte of the frame written (R21), the trailer of a finished frame (R77, R87), and an error record whose cause is
an error that was raised (R26, R27). -/
structure State.Inv (s : State) : Prop where
  rule36 : s.RuleR36
  cap_ok : Config.frameCapOk s.frameCap = true
  fbuf_wf : s.fbuf.wf
  fbuf_inside : ∀ c ∈ s.fbuf, c.1 < s.frameCap
  written : ∀ i < s.flen, (Memory.read? s.fbuf i).isSome = true
  trailer : s.estate = .done → ∃ body, 2 ≤ body.length ∧ frameBytes s = body ++ lowFirst (crc16 body)
  cause_sticky : ∀ e, s.err.cause = some e → s.err.sticky e = true
  eop_clear : s.err.cause = none → s.err.eop = 0x00#8

/-- The host's events `es` take place one after the other, one step each. -/
def runEvents (es : List HostEvent) (s : State) : Host.Outcome State Fault Refusal :=
  Host.Core.run Sys2Proof.core es.length { s with events := es }

/-- An outcome with its next state changed by `f`. -/
def mapNext (f : State → State) : Host.Outcome State Fault Refusal → Host.Outcome State Fault Refusal
  | .next t => .next (f t)
  | .fault r => .fault r
  | .refused r => .refused r

/-- The CRC commands (R76). -/
def isCrcCommand : Instr → Bool
  | .crcInit => true
  | .crcByte _ => true
  | .crcCmp _ => true
  | .encNew _ _ => false
  | .encU16 _ => false
  | .encI32 _ => false
  | .encFinal => false
  | .encU8 _ => false

/-- ENC_NEW. -/
def isEncNew : Instr → Bool
  | .encNew _ _ => true
  | .crcInit => false
  | .crcByte _ => false
  | .crcCmp _ => false
  | .encU16 _ => false
  | .encI32 _ => false
  | .encFinal => false
  | .encU8 _ => false

/-- The payload bytes an append puts into the frame (R81 to R83); none for a command that is no append. -/
def appendBytes : Instr → Option (List Byte)
  | .encU16 h => some (be16 h)
  | .encI32 w => some (be32 w)
  | .encU8 b => some [b]
  | .crcInit => none
  | .crcByte _ => none
  | .crcCmp _ => none
  | .encNew _ _ => none
  | .encFinal => none

/-- The commands that are legal in BUILD only (R93). -/
def needsBuild (i : Instr) : Bool := (appendBytes i).isSome || decide (i = .encFinal)

/-- The table of R78: `estate` after a command that raises no OVF and stands in a word that raises no ILL. -/
def nextEstate : EncState → Instr → EncState
  | _, .encNew _ _ => .build
  | .build, .encFinal => .done
  | e, _ => e

/-- The error a command word raises in a state, in the order of R97: ILL, then SEQ, then OVF. -/
def errorOf (cw : CmdWord) (s : State) : Option ErrKind :=
  match decode cw with
  | .illegal _ => some .ill
  | .command i =>
    if needsBuild i && decide (s.estate ≠ .build) then some .seq
    else
      match appendBytes i with
      | some bytes => if s.flen + bytes.length ≤ s.frameCap - 2 then none else some .ovf
      | none => none

/-- `t` holds `bytes` from index `start` up, and every other byte of the buffer as `s` holds it. -/
def WroteBytes (start : Nat) (bytes : List Byte) (s t : State) : Prop :=
  (∀ k, ∀ h : k < bytes.length, memRead t (start + k) = bytes[k]) ∧
    ∀ a, a < start ∨ start + bytes.length ≤ a → memRead t a = memRead s a

/-- The next event is the offer of the word `cw`, held stable, to a block that is ready: the word is accepted. -/
def Accepts (s : State) (cw : CmdWord) (rest : List HostEvent) : Prop :=
  s.events = .offer cw [] :: rest ∧ s.cmdReady = true

/-- An event that is no reset and, where it is an offer, keeps its word stable. -/
def steady : HostEvent → Bool
  | .offer _ changed => changed.isEmpty
  | .assertRst => false
  | .withdraw _ _ => true
  | .idle => true
  | .read _ => true
  | .releaseRst => true

/-- The event offers CRC_INIT. -/
def offersCrcInit : HostEvent → Bool
  | .offer cw _ => decide (decode cw = .command .crcInit)
  | .withdraw _ _ => false
  | .idle => false
  | .read _ => false
  | .assertRst => false
  | .releaseRst => false

/-- The byte an offered word feeds into the CRC, if it is a CRC_BYTE. -/
def fedBy : HostEvent → Option Byte
  | .offer cw _ =>
    match decode cw with
    | .command (.crcByte b) => some b
    | _ => none
  | .withdraw _ _ => none
  | .idle => none
  | .read _ => none
  | .assertRst => none
  | .releaseRst => none

/-- The words an event offers to the block. -/
def offered : HostEvent → List CmdWord
  | .offer cw changed => cw :: changed
  | .withdraw _ _ => []
  | .idle => []
  | .read _ => []
  | .assertRst => []
  | .releaseRst => []

/-- A payload field of the source's encoder: `write_u16_be`, `write_i32_be`, and the spec's own byte (R81 to R83). -/
inductive PayloadField where
  | u16 (v : Half)
  | i32 (v : Arg)
  | u8 (v : Byte)
  deriving DecidableEq, Repr

/-- The bytes of a field in wire order, by arithmetic on its value: byte `k` from the end is `v / 256^k` (R40). -/
def PayloadField.bytes : PayloadField → List Byte
  | .u16 v => [BitVec.ofNat 8 (v.toNat / 256), BitVec.ofNat 8 v.toNat]
  | .i32 v =>
    [BitVec.ofNat 8 (v.toNat / 16777216), BitVec.ofNat 8 (v.toNat / 65536), BitVec.ofNat 8 (v.toNat / 256),
      BitVec.ofNat 8 v.toNat]
  | .u8 v => [v]

/-- The command that appends a field (R89). -/
def PayloadField.command : PayloadField → Instr
  | .u16 v => .encU16 v
  | .i32 v => .encI32 v
  | .u8 v => .encU8 v

/-- The frame the source's FrameEncoder returns for `new(adr, fc)`, the fields' writes and `finalize()` (R77):
address, function code, payload, and the CRC of all of it, low byte first. -/
def sourceFrame (adr fc : Byte) (fields : List PayloadField) : List Byte :=
  let body := [adr, fc] ++ fields.flatMap PayloadField.bytes
  let c := crc16 body
  body ++ [BitVec.ofNat 8 c.toNat, BitVec.ofNat 8 (c.toNat / 256)]

/-- The commands that match the same calls (R89). -/
def encoderCalls (adr fc : Byte) (fields : List PayloadField) : List HostEvent :=
  offerOf (.encNew adr fc) :: (fields.map (fun f => offerOf f.command) ++ [offerOf .encFinal])

/-- Feed bytes to the CRC from its initial value, and compare with `h` (R71, R72). -/
def crcCheckCalls (bytes : List Byte) (h : Half) : List HostEvent :=
  offerOf .crcInit :: (bytes.map (fun b => offerOf (.crcByte b)) ++ [offerOf (.crcCmp h)])

end Sys2Proof.Machine
end

