-- ==== Sys2Proof/Certificates/Slice0/Obligations.lean ====
section
/-! DEFINITION. The statements about the block, for the provers.  Each docstring names the rules of spec/ it formalises.

`Accepts s cw rest` (Safety.lean) says that the next event offers the word `cw`, held stable, to a block that is ready.
A conclusion `… = .next t` says that the command runs; a state written as an update of another says with it that every
other element, the frame buffer's every byte among them, is unchanged. -/

open Sys2Proof
open Sys2Proof.Machine

/-! ### Decoding -/

/-- The step that accepts a word performs the command the word decodes to, at the state with that event taken off, and
raises ILL for a word that is no command; `withFetchWord` makes any word the one accepted next.  (R16, R58) -/
def Obligations.StepPerformsTheAcceptedWord : Prop :=
  (∀ s cw rest i, Accepts s cw rest → decode cw = .command i → step s = exec i { s with events := rest }) ∧
  (∀ s cw rest why, Accepts s cw rest → decode cw = .illegal why →
    step s = .next (raiseError .ill (opOf cw) { s with events := rest })) ∧
  ∀ (s : State) nbits w, Accepts (s.withFetchWord nbits w) (tableWord nbits w) s.events

/-- R58: the decoder accepts exactly the words the rule calls legal, a command has the opcode and the operand of its
word, and the step raises ILL or performs the command. -/
def Obligations.DecodeAcceptsExactlyLegalWords : Prop :=
  (∀ cw, legal cw = true ↔ ∃ i, decode cw = .command i) ∧
  (∀ cw i, decode cw = .command i → i.opcode = opOf cw ∧ i.arg = argOf cw) ∧
  ∀ s cw rest, Accepts s cw rest →
    (legal cw = true → ∃ i, decode cw = .command i ∧ step s = exec i { s with events := rest }) ∧
    (legal cw = false → step s = .next { s with events := rest, err := s.err.record .ill (opOf cw) })

/-- Decoding and encoding are inverse: no operand bit is dropped, and each command has one word.  (R53, R55, R57) -/
def Obligations.DecodeEncodeRoundTrip : Prop :=
  (∀ i, decode (encode i) = .command i) ∧ ∀ cw i, decode cw = .command i → encode i = cw

/-- Words written out from the spec's table decode to what they stand for.  (R57, R63) -/
def Obligations.SpecWordsDecode : Prop :=
  decode 0x0100000000#40 = .command .crcInit ∧
  decode 0x0200000001#40 = .command (.crcByte 0x01#8) ∧
  decode 0x0300000BC4#40 = .command (.crcCmp 0x0BC4#16) ∧
  decode 0x1000000103#40 = .command (.encNew 0x01#8 0x03#8) ∧
  decode 0x110000ABCD#40 = .command (.encU16 0xABCD#16) ∧
  decode 0x1212345678#40 = .command (.encI32 0x12345678#32) ∧
  decode 0x1300000000#40 = .command .encFinal ∧
  decode 0x14000000EE#40 = .command (.encU8 0xEE#8)

/-- R59: a reserved opcode raises ILL and has no other effect; there are 248 of them, 0x00 and 0xFF among them, so the
all-zero word is illegal. -/
def Obligations.ReservedOpcodeRaisesIll : Prop :=
  (∀ s cw rest, Accepts s cw rest →
    opOf cw ∉ [0x01#8, 0x02#8, 0x03#8, 0x10#8, 0x11#8, 0x12#8, 0x13#8, 0x14#8] →
    decode cw = .illegal .reservedOpcode ∧
    step s = .next { s with events := rest, err := s.err.record .ill (opOf cw) }) ∧
  ((List.range 256).filter
    (fun n => decide (n ∉ [0x01, 0x02, 0x03, 0x10, 0x11, 0x12, 0x13, 0x14]))).length = 248 ∧
  (∀ arg, decode (wordOf 0x00#8 arg) = .illegal .reservedOpcode ∧
    decode (wordOf 0xFF#8 arg) = .illegal .reservedOpcode) ∧
  decode 0x0000000000#40 = .illegal .reservedOpcode

/-- R60: a defined opcode with any reserved bit of its form set raises ILL and has no other effect. -/
def Obligations.ReservedBitsRaiseIll : Prop :=
  (∀ s cw rest form, Accepts s cw rest → (opOf cw, form) ∈ opcodeForms → argOf cw &&& form.reserved ≠ 0#32 →
    decode cw = .illegal .reservedBits ∧
    step s = .next { s with events := rest, err := s.err.record .ill (opOf cw) }) ∧
  decode 0x0200000100#40 = .illegal .reservedBits

/-! ### The CRC generator -/

/-- R68: XOR into the low byte, then 8 right shifts, each followed by an XOR of 0xA001 when the bit shifted out is 1. -/
def Obligations.CrcStepIsEightConditionalShifts : Prop :=
  (∀ c b, crcStep c b =
    (fun r : Half => if r[0] then (r >>> 1) ^^^ 0xA001#16 else r >>> 1)^[8] (c ^^^ b.zeroExtend 16)) ∧
  crcStep 0xFFFF#16 0x01#8 = 0x807E#16

/-- A byte-wide table gives the same update: the high byte moves down, and the low byte XOR the input byte indexes a
table of 256 values.  (R68: any implementation gives the same result, "a 256-entry table" among them) -/
def Obligations.CrcStepAgreesWithByteTable : Prop :=
  ∀ c b, crcStep c b = (c >>> 8) ^^^ crcStep 0x0000#16 (c.extractLsb' 0 8 ^^^ b)

/-- R73: CrcStep is linear over GF(2) in the pair (c, b). -/
def Obligations.CrcStepIsLinear : Prop :=
  ∀ c1 c2 b1 b2, crcStep (c1 ^^^ c2) (b1 ^^^ b2) = crcStep c1 b1 ^^^ crcStep c2 b2

/-- CrcStep(c, b) is a bijection of c for each fixed b.  (R72) -/
def Obligations.CrcStepIsBijective : Prop :=
  ∀ b, Function.Bijective (fun c => crcStep c b)

/-- R74: appending the CRC low byte first and running the CRC over all of it leaves zero. -/
def Obligations.CrcResidueIsZero : Prop :=
  ∀ s : List Byte, crc16 (s ++ [(crc16 s).extractLsb' 0 8, (crc16 s).extractLsb' 8 8]) = 0x0000#16

/-- R75: the CRC of the empty sequence is 0xFFFF, and `crc` holds it after reset and after CRC_INIT. -/
def Obligations.EmptySequenceCrc : Prop :=
  crc16 [] = 0xFFFF#16 ∧
  (∀ cap, (State.resetOf cap).crc = crc16 []) ∧
  (∀ s rest, s.events = .assertRst :: rest → ∃ t, step s = .next t ∧ t.crc = crc16 []) ∧
  ∀ s, ∃ t, exec .crcInit s = .next t ∧ t.crc = crc16 []

/-- R69: CRC_INIT sets `crc` to 0xFFFF and nothing else, in every state; with a set operand bit it raises ILL and leaves
`crc` unchanged. -/
def Obligations.CrcInitSetsTheRegister : Prop :=
  (∀ arg, decode (wordOf 0x01#8 arg) = if arg = 0#32 then .command .crcInit else .illegal .reservedBits) ∧
  (∀ s, exec .crcInit s = .next { s with crc := 0xFFFF#16 }) ∧
  (∀ s t, exec .crcInit s = .next t → exec .crcInit t = .next t) ∧
  ∀ s arg rest, Accepts s (wordOf 0x01#8 arg) rest → arg ≠ 0#32 →
    step s = .next { s with events := rest, err := s.err.record .ill 0x01#8 }

/-- R70: CRC_BYTE replaces `crc` by CrcStep(crc, b) and nothing else, in every state; with a set reserved bit it raises
ILL and leaves `crc` unchanged. -/
def Obligations.CrcByteFeedsOneByte : Prop :=
  (∀ arg : Arg, decode (wordOf 0x02#8 arg) =
    if arg.extractLsb' 8 24 = 0#24 then .command (.crcByte (arg.extractLsb' 0 8)) else .illegal .reservedBits) ∧
  (∀ b s, exec (.crcByte b) s = .next { s with crc := crcStep s.crc b }) ∧
  (∀ s (arg : Arg) rest, Accepts s (wordOf 0x02#8 arg) rest → arg.extractLsb' 8 24 ≠ 0#24 →
    step s = .next { s with events := rest, err := s.err.record .ill 0x02#8 }) ∧
  crcStep 0x0000#16 0x00#8 = 0x0000#16 ∧ crcStep 0xFFFF#16 0xFF#8 = 0x00FF#16 ∧
  crcStep 0xFFFF#16 0x00#8 = 0x40BF#16 ∧ crcStep 0xFFFF#16 0x01#8 = 0x807E#16

/-- R72: CRC_CMP sets `match` to whether `crc` equals the operand, and nothing else, in every state; with a set reserved
bit it raises ILL and leaves `match` unchanged.  Feeding a trailer r0, r1 and comparing with 0 gives the verdict of the
comparison with r1 ++ r0. -/
def Obligations.CrcCmpSetsTheMatchFlag : Prop :=
  (∀ arg : Arg, decode (wordOf 0x03#8 arg) =
    if arg.extractLsb' 16 16 = 0#16 then .command (.crcCmp (arg.extractLsb' 0 16)) else .illegal .reservedBits) ∧
  (∀ h s, exec (.crcCmp h) s = .next { s with crcMatch := decide (s.crc = h) }) ∧
  (∀ s (arg : Arg) rest, Accepts s (wordOf 0x03#8 arg) rest → arg.extractLsb' 16 16 ≠ 0#16 →
    step s = .next { s with events := rest, err := s.err.record .ill 0x03#8 }) ∧
  (∀ b, Function.Bijective (fun c => crcStep c b)) ∧
  (∀ (c : Half) (r0 r1 : Byte), crcStep (crcStep c r0) r1 = 0x0000#16 ↔ c = r1 ++ r0) ∧
  (∀ cap, (State.resetOf cap).crc = 0xFFFF#16) ∧ (∀ s t, exec .crcInit s = .next t → t.crc = 0xFFFF#16) ∧
  crc16 [0x01#8, 0x03#8, 0x00#8, 0x00#8, 0x00#8, 0x02#8] = 0x0BC4#16 ∧ 0x0B#8 ++ 0xC4#8 = 0x0BC4#16

/-- R95: a mismatch sets `match` to 0 and raises nothing. -/
def Obligations.CrcMismatchIsNoError : Prop :=
  ∀ s h, s.crc ≠ h → exec (.crcCmp h) s = .next { s with crcMatch := false } ∧
    ∀ t, exec (.crcCmp h) s = .next t → (statusOut t).getLsbD 2 = false ∧ t.err = s.err

/-- R71: after CRC_INIT, whatever comes in between but another CRC_INIT (or a reset), the register holds the CRC of the
bytes fed by CRC_BYTE.  The commands between may be encoder commands, CRC_CMP and words that raise ILL, and reads. -/
def Obligations.CrcOverSubRange : Prop :=
  ∀ s es, s.Inv → s.cmdReady = true → (∀ e ∈ es, steady e = true ∧ offersCrcInit e = false) →
    ∃ t, runEvents (offerOf .crcInit :: es) s = .next t ∧ t.crc = crc16 (es.filterMap fedBy)

/-- R76: the CRC commands run in every state and neither read nor write the frame side; the encoder commands neither
read nor write `crc` and `match`. -/
def Obligations.CrcAndEncoderAreIndependent : Prop :=
  (∀ i s, isCrcCommand i = true → ∃ t, exec i s = .next t ∧ t = { s with crc := t.crc, crcMatch := t.crcMatch }) ∧
  (∀ i s fbuf flen estate, isCrcCommand i = true →
    exec i { s with fbuf := fbuf, flen := flen, estate := estate } =
      mapNext (fun t => { t with fbuf := fbuf, flen := flen, estate := estate }) (exec i s)) ∧
  ∀ i s crc crcMatch, isCrcCommand i = false →
    exec i { s with crc := crc, crcMatch := crcMatch } =
      mapNext (fun t => { t with crc := crc, crcMatch := crcMatch }) (exec i s)

/-! ### The frame encoder -/

/-- R79: ENC_NEW writes the address and the function code at indices 0 and 1, whatever they are and in every encoder
state, and starts the frame; the bytes above keep their contents and are not readable as defined values; with a set
reserved bit it raises ILL. -/
def Obligations.EncNewStartsAFrame : Prop :=
  (∀ arg : Arg, decode (wordOf 0x10#8 arg) =
    if arg.extractLsb' 16 16 = 0#16 then .command (.encNew (arg.extractLsb' 8 8) (arg.extractLsb' 0 8))
    else .illegal .reservedBits) ∧
  (∀ adr fc s, Config.frameCapOk s.frameCap = true →
    ∃ t, exec (.encNew adr fc) s = .next t ∧
      t = { s with fbuf := t.fbuf, flen := 2, estate := .build } ∧
      WroteBytes 0 [adr, fc] s t ∧ frameBytes t = [adr, fc] ∧
      ∀ addr : Half, 2 ≤ addr.toNat → frameOut addr t = Config.frameDraw t.draws) ∧
  ∀ s (arg : Arg) rest, Accepts s (wordOf 0x10#8 arg) rest → arg.extractLsb' 16 16 ≠ 0#16 →
    step s = .next { s with events := rest, err := s.err.record .ill 0x10#8 }

/-- R81: ENC_U16 appends `h[15:8]` and `h[7:0]` at `flen`; SEQ outside BUILD, OVF without room, ILL on a set reserved
bit. -/
def Obligations.EncU16AppendsBigEndian : Prop :=
  (∀ arg : Arg, decode (wordOf 0x11#8 arg) =
    if arg.extractLsb' 16 16 = 0#16 then .command (.encU16 (arg.extractLsb' 0 16)) else .illegal .reservedBits) ∧
  (∀ h s, s.estate ≠ .build → exec (.encU16 h) s = .next { s with err := s.err.record .seq 0x11#8 }) ∧
  (∀ h s, s.estate = .build → s.flen + 2 > s.frameCap - 2 →
    exec (.encU16 h) s = .next { s with err := s.err.record .ovf 0x11#8 }) ∧
  (∀ h s, s.estate = .build → s.flen + 2 ≤ s.frameCap - 2 →
    ∃ t, exec (.encU16 h) s = .next t ∧ t = { s with fbuf := t.fbuf, flen := s.flen + 2 } ∧
      WroteBytes s.flen [h.extractLsb' 8 8, h.extractLsb' 0 8] s t) ∧
  ∀ s (arg : Arg) rest, Accepts s (wordOf 0x11#8 arg) rest → arg.extractLsb' 16 16 ≠ 0#16 →
    step s = .next { s with events := rest, err := s.err.record .ill 0x11#8 }

/-- R82: ENC_I32 appends the four bytes of `w`, most significant first, at `flen`; SEQ outside BUILD, OVF without room,
all or nothing; every operand is legal. -/
def Obligations.EncI32AppendsBigEndian : Prop :=
  (∀ arg : Arg, decode (wordOf 0x12#8 arg) = .command (.encI32 arg)) ∧
  (∀ w s, s.estate ≠ .build → exec (.encI32 w) s = .next { s with err := s.err.record .seq 0x12#8 }) ∧
  (∀ w s, s.estate = .build → s.flen + 4 > s.frameCap - 2 →
    exec (.encI32 w) s = .next { s with err := s.err.record .ovf 0x12#8 }) ∧
  ∀ w s, s.estate = .build → s.flen + 4 ≤ s.frameCap - 2 →
    ∃ t, exec (.encI32 w) s = .next t ∧ t = { s with fbuf := t.fbuf, flen := s.flen + 4 } ∧
      WroteBytes s.flen [w.extractLsb' 24 8, w.extractLsb' 16 8, w.extractLsb' 8 8, w.extractLsb' 0 8] s t

/-- R83: ENC_U8 appends one byte at `flen`; SEQ outside BUILD, OVF without room, ILL on a set reserved bit. -/
def Obligations.EncU8AppendsOneByte : Prop :=
  (∀ arg : Arg, decode (wordOf 0x14#8 arg) =
    if arg.extractLsb' 8 24 = 0#24 then .command (.encU8 (arg.extractLsb' 0 8)) else .illegal .reservedBits) ∧
  (∀ b s, s.estate ≠ .build → exec (.encU8 b) s = .next { s with err := s.err.record .seq 0x14#8 }) ∧
  (∀ b s, s.estate = .build → s.flen + 1 > s.frameCap - 2 →
    exec (.encU8 b) s = .next { s with err := s.err.record .ovf 0x14#8 }) ∧
  (∀ b s, s.estate = .build → s.flen + 1 ≤ s.frameCap - 2 →
    ∃ t, exec (.encU8 b) s = .next t ∧ t = { s with fbuf := t.fbuf, flen := s.flen + 1 } ∧
      WroteBytes s.flen [b] s t) ∧
  ∀ s (arg : Arg) rest, Accepts s (wordOf 0x14#8 arg) rest → arg.extractLsb' 8 24 ≠ 0#24 →
    step s = .next { s with events := rest, err := s.err.record .ill 0x14#8 }

/-- R84: ENC_FINAL appends the CRC of the bytes written so far, low byte first, and closes the frame; SEQ in IDLE and
in DONE; ILL when its operand is not 0. -/
def Obligations.EncFinalAppendsTheCrc : Prop :=
  (∀ arg, decode (wordOf 0x13#8 arg) = if arg = 0#32 then .command .encFinal else .illegal .reservedBits) ∧
  (∀ s, s.estate ≠ .build → exec .encFinal s = .next { s with err := s.err.record .seq 0x13#8 }) ∧
  (∀ s, s.estate = .build → s.flen + 2 ≤ s.frameCap →
    ∃ t, exec .encFinal s = .next t ∧
      t = { s with fbuf := t.fbuf, flen := s.flen + 2, estate := .done } ∧
      WroteBytes s.flen [(crc16 (frameBytes s)).extractLsb' 0 8, (crc16 (frameBytes s)).extractLsb' 8 8] s t) ∧
  ∀ s arg rest, Accepts s (wordOf 0x13#8 arg) rest → arg ≠ 0#32 →
    step s = .next { s with events := rest, err := s.err.record .ill 0x13#8 }

/-- The byte orders, read back as the source's decoder accumulates them: a payload field by shifting left 8 bits for
each byte, a CRC trailer r0, r1 as r1 ++ r0.  (R39, R40) -/
def Obligations.ByteOrdersReadBack : Prop :=
  (∀ v : Half, (be16 v).foldl (fun (acc : Half) b => (acc <<< 8) ||| b.zeroExtend 16) 0#16 = v) ∧
  (∀ v : Arg, (be32 v).foldl (fun (acc : Arg) b => (acc <<< 8) ||| b.zeroExtend 32) 0#32 = v) ∧
  ∀ c : Half, ∃ r0 r1, lowFirst c = [r0, r1] ∧ trailerRef r0 r1 = c

/-- R80: an append of n bytes is performed exactly when flen + n ≤ FRAME_CAP - 2, and otherwise raises OVF and writes
nothing. -/
def Obligations.CapacityDecidesTheAppend : Prop :=
  ∀ i bytes s, appendBytes i = some bytes → s.estate = .build →
    ((∃ t, exec i s = .next t ∧ t.flen = s.flen + bytes.length ∧ WroteBytes s.flen bytes s t ∧ t.err = s.err) ↔
      s.flen + bytes.length ≤ s.frameCap - 2) ∧
    (¬ s.flen + bytes.length ≤ s.frameCap - 2 → exec i s = .next { s with err := s.err.record .ovf i.opcode })

/-- R85: nothing is validated.  Every address and function code is written as given, and every payload the capacity
allows is accepted, with no error. -/
def Obligations.EncoderValidatesNothing : Prop :=
  (∀ adr fc s, Config.frameCapOk s.frameCap = true →
    ∃ t, exec (.encNew adr fc) s = .next t ∧ frameBytes t = [adr, fc] ∧ t.err = s.err) ∧
  ∀ i bytes s, appendBytes i = some bytes → s.estate = .build → s.flen + bytes.length ≤ s.frameCap - 2 →
    ∃ t, exec i s = .next t ∧ frameBytes t = frameBytes s ++ bytes ∧ t.err = s.err

/-- R88: the bounds of `flen` in each encoder state; no step lets it pass FRAME_CAP; and at every capacity a frame with
FRAME_CAP - 4 payload bytes is FRAME_CAP bytes long. -/
def Obligations.LengthBoundsHoldAndAreReached : Prop :=
  (∀ s : State, s.Inv →
    (s.estate = .idle → s.flen = 0) ∧ (s.estate = .build → 2 ≤ s.flen ∧ s.flen ≤ s.frameCap - 2) ∧
    (s.estate = .done → 4 ≤ s.flen ∧ s.flen ≤ s.frameCap)) ∧
  (∀ s t : State, s.Inv → step s = .next t → t.flen ≤ t.frameCap) ∧
  ∀ cap, Config.frameCapOk cap = true → ∃ adr fc fields t,
    runEvents (encoderCalls adr fc fields) (State.resetOf cap) = .next t ∧ t.estate = .done ∧ t.flen = cap ∧
    (fields.flatMap PayloadField.bytes).length = cap - 4

/-- R78: the table of encoder states.  A command that runs leads where the table says; outside BUILD the appends and
ENC_FINAL raise SEQ and stay; a word that raises ILL changes no encoder state. -/
def Obligations.EncoderStateTransitions : Prop :=
  (∀ i s t, exec i s = .next t → t.estate = nextEstate s.estate i) ∧
  (∀ i s, needsBuild i = true → s.estate ≠ .build →
    exec i s = .next { s with err := s.err.record .seq i.opcode }) ∧
  ∀ s cw rest t, Accepts s cw rest → legal cw = false → step s = .next t → t.estate = s.estate

/-- R89: for every call sequence whose frame fits, the matching commands raise no error and leave in the buffer exactly
the frame the source's encoder returns.  The spec's own byte append is allowed among the writes. -/
def Obligations.EncoderBuildsTheSourceFrame : Prop :=
  ∀ s adr fc fields, Config.frameCapOk s.frameCap = true → s.cmdReady = true →
    (sourceFrame adr fc fields).length ≤ s.frameCap →
    ∃ t, runEvents (encoderCalls adr fc fields) s = .next t ∧
      frameBytes t = sourceFrame adr fc fields ∧ t.estate = .done ∧ t.err = s.err

/-- A finished frame verifies on the block: in DONE the last two bytes are the CRC of the bytes before them, low byte
first, the CRC of the whole is 0, and feeding all of it and comparing with 0 sets `match`.  (R87) -/
def Obligations.DoneFrameVerifies : Prop :=
  ∀ s, s.Inv → s.estate = .done →
    memRead s (s.flen - 2) = (crc16 ((frameBytes s).take (s.flen - 2))).extractLsb' 0 8 ∧
    memRead s (s.flen - 1) = (crc16 ((frameBytes s).take (s.flen - 2))).extractLsb' 8 8 ∧
    crc16 (frameBytes s) = 0x0000#16 ∧
    (s.cmdReady = true → ∃ t, runEvents (crcCheckCalls (frameBytes s) 0x0000#16) s = .next t ∧ t.crcMatch = true)

/-- A finished frame stays readable and unchanged until the next ENC_NEW or reset: no other event in DONE writes the
buffer, `flen` or `estate`.  (R86) -/
def Obligations.DoneFrameStays : Prop :=
  ∀ s t e rest, s.estate = .done → s.events = e :: rest → e ≠ .assertRst →
    (∀ cw ∈ offered e, ∀ i, decode cw = .command i → isEncNew i = false) →
    step s = .next t → t.fbuf = s.fbuf ∧ t.flen = s.flen ∧ t.estate = s.estate ∧ frameBytes t = frameBytes s

/-- The bytes at and above `flen` are read by nothing: a command's outcome shows the same frame, and the same everything
else, whatever they are, and the FRAME port answers the same there.  (R90, R31) -/
def Obligations.StaleBytesAreNotRead : Prop :=
  ∀ s fbuf, (∀ a < s.flen, memRead { s with fbuf := fbuf } a = memRead s a) →
    (∀ i, mapNext (fun t => { t with fbuf := [] }) (exec i { s with fbuf := fbuf }) =
      mapNext (fun t => { t with fbuf := [] }) (exec i s)) ∧
    (∀ i t u, exec i s = .next t → exec i { s with fbuf := fbuf } = .next u → frameBytes u = frameBytes t) ∧
    ∀ addr, frameOut addr { s with fbuf := fbuf } = frameOut addr s

/-- Each element is written by the commands its rule names and by no other: `crc` by CRC_INIT and CRC_BYTE, `match` by
CRC_CMP, a byte of the buffer by ENC_U16, ENC_I32, ENC_U8 or ENC_FINAL at `flen` or just above it.  The one exception is
ENC_NEW, which writes indices 0 and 1 as R79's pseudocode says, whatever `flen` is, where R20 and R37 say "at `flen`"
(log entry 16).  The capacity, `cmd_ready`, the schedule and the model's counts are changed by none.  (R19, R20, R23,
R37, R46, R79) -/
def Obligations.OnlyNamedCommandsWriteEachElement : Prop :=
  ∀ i s t, exec i s = .next t →
    (t.crc ≠ s.crc → i = .crcInit ∨ ∃ b, i = .crcByte b) ∧
    (t.crcMatch ≠ s.crcMatch → ∃ h, i = .crcCmp h) ∧
    (t.flen ≠ s.flen ∨ t.estate ≠ s.estate → isCrcCommand i = false) ∧
    (∀ a, memRead t a ≠ memRead s a →
      (isEncNew i = true ∧ a < 2) ∨
      (needsBuild i = true ∧ s.estate = .build ∧ s.flen ≤ a ∧ a < t.flen)) ∧
    t = { s with crc := t.crc, crcMatch := t.crcMatch, fbuf := t.fbuf, flen := t.flen, estate := t.estate, err := t.err }

/-! ### Errors -/

/-- R96: raising an error sets its sticky bit; the first since reset also sets `ecause` and `eop`; no other state
changes. -/
def Obligations.RaisingRecordsTheError : Prop :=
  ∀ e op s,
    raiseError e op s = { s with err := (raiseError e op s).err } ∧
    (raiseError e op s).err.sticky e = true ∧
    (∀ e', e' ≠ e → (raiseError e op s).err.sticky e' = s.err.sticky e') ∧
    (s.err.cause = none → (raiseError e op s).err.cause = some e ∧ (raiseError e op s).err.eop = op) ∧
    (s.err.cause ≠ none → (raiseError e op s).err.cause = s.err.cause ∧ (raiseError e op s).err.eop = s.err.eop)

/-- R92: a word raises ILL exactly when its opcode is reserved or a reserved operand bit is set; the error sets STATUS
bit 4 and, when it is the first, ECAUSE 1 and EOP to the word's opcode. -/
def Obligations.IllIsRaisedByIllegalWords : Prop :=
  ∀ s cw rest, Accepts s cw rest →
    (legal cw = false ↔ errorOf cw s = some .ill) ∧
    (legal cw = false → ∃ t, step s = .next t ∧ t = { s with events := rest, err := t.err } ∧
      (statusOut t).getLsbD 4 = true ∧
      (s.err.cause = none → (statusOut t).extractLsb' 8 2 = 1#2 ∧ eopOut t = cw.extractLsb' 32 8)) ∧
    ∀ t, step s = .next t → s.err.ill = false → t.err.ill = true → legal cw = false

/-- R93: ENC_U16, ENC_I32, ENC_U8 and ENC_FINAL outside BUILD raise SEQ, and nothing else does; the error sets STATUS
bit 5 and, when it is the first, ECAUSE 2 and EOP. -/
def Obligations.SeqIsRaisedOutsideBuild : Prop :=
  (∀ i s, needsBuild i = true → s.estate ≠ .build →
    ∃ t, exec i s = .next t ∧ t = { s with err := t.err } ∧ (statusOut t).getLsbD 5 = true ∧
      (s.err.cause = none → (statusOut t).extractLsb' 8 2 = 2#2 ∧ eopOut t = i.opcode)) ∧
  ∀ i s t, exec i s = .next t → s.err.seq = false → t.err.seq = true →
    ((∃ h, i = .encU16 h) ∨ (∃ w, i = .encI32 w) ∨ (∃ b, i = .encU8 b) ∨ i = .encFinal) ∧ s.estate ≠ .build

/-- R94: ENC_U16, ENC_I32 and ENC_U8 in BUILD raise OVF when the capacity test fails, writing no byte, and nothing else
raises it; the error sets STATUS bit 6 and, when it is the first, ECAUSE 3 and EOP. -/
def Obligations.OvfIsRaisedWithoutRoom : Prop :=
  (∀ i bytes s, appendBytes i = some bytes → s.estate = .build → s.flen + bytes.length > s.frameCap - 2 →
    ∃ t, exec i s = .next t ∧ t = { s with err := t.err } ∧ (statusOut t).getLsbD 6 = true ∧
      (s.err.cause = none → (statusOut t).extractLsb' 8 2 = 3#2 ∧ eopOut t = i.opcode)) ∧
  ∀ i s t, exec i s = .next t → s.err.ovf = false → t.err.ovf = true →
    ∃ bytes, appendBytes i = some bytes ∧ s.estate = .build ∧ s.flen + bytes.length > s.frameCap - 2

/-- R97: a command raises at most one error, the first that applies of ILL, SEQ, OVF. -/
def Obligations.OneErrorInFixedOrder : Prop :=
  ∀ s cw rest t, Accepts s cw rest → step s = .next t →
    t.err = match errorOf cw s with
      | some e => s.err.record e (opOf cw)
      | none => s.err

/-- R98: a command that raises an error leaves `crc`, `match`, the buffer, `flen` and `estate` exactly as they were. -/
def Obligations.ErrorsArePrecise : Prop :=
  ∀ s cw rest e, Accepts s cw rest → errorOf cw s = some e →
    step s = .next { s with events := rest, err := s.err.record e (opOf cw) }

/-- R99: only reset clears the sticky bits, `ecause` and `eop`; and after an error the block performs commands as it
does without one. -/
def Obligations.OnlyResetClearsTheErrorRecord : Prop :=
  (∀ s t e rest, s.events = e :: rest → e ≠ .assertRst → step s = .next t →
    (∀ k, s.err.sticky k = true → t.err.sticky k = true) ∧
    (s.err.cause ≠ none → t.err.cause = s.err.cause ∧ t.err.eop = s.err.eop)) ∧
  (∀ s rest, s.events = .assertRst :: rest → ∃ t, step s = .next t ∧ t.err = .clear) ∧
  ∀ i s err, mapNext (fun t => { t with err := .clear }) (exec i { s with err := err }) =
    mapNext (fun t => { t with err := .clear }) (exec i s)

/-- The machine faults only at a write outside the frame buffer: ENC_NEW or ENC_FINAL, in a state that breaks R7 or
R36.  (R37; the fault is the model's, log entry 8) -/
def Obligations.OnlyWritesOutsideTheBufferFault : Prop :=
  (∀ adr fc s, s.frameCap < 2 → exec (.encNew adr fc) s = .fault .outsideFrameBuffer) ∧
  (∀ s, s.estate = .build → s.frameCap < s.flen + 2 → exec .encFinal s = .fault .outsideFrameBuffer) ∧
  (∀ i s f, exec i s = .fault f →
    (isEncNew i = true ∧ s.frameCap < 2) ∨ (i = .encFinal ∧ s.estate = .build ∧ s.frameCap < s.flen + 2)) ∧
  ∀ i s r, exec i s ≠ .refused r

/-! ### The ports -/

/-- R28: the fields of STATUS, bit by bit; the reserved bits read 0, STATE never reads 3, and after reset all of it
reads 0. -/
def Obligations.StatusLayout : Prop :=
  (∀ s,
    (statusOut s).extractLsb' 0 2 = (match s.estate with | .idle => 0#2 | .build => 1#2 | .done => 2#2) ∧
    (statusOut s).getLsbD 2 = s.crcMatch ∧
    (statusOut s).getLsbD 4 = s.err.ill ∧
    (statusOut s).getLsbD 5 = s.err.seq ∧
    (statusOut s).getLsbD 6 = s.err.ovf ∧
    (statusOut s).extractLsb' 8 2 =
      (match s.err.cause with | none => 0#2 | some .ill => 1#2 | some .seq => 2#2 | some .ovf => 3#2) ∧
    (∀ i ∈ [3, 7, 10, 11, 12, 13, 14, 15], (statusOut s).getLsbD i = false) ∧
    (statusOut s).extractLsb' 0 2 ≠ 3#2) ∧
  ∀ cap, statusOut (State.resetOf cap) = 0x0000#16

/-- R29, R30: LEN is `flen` (exactly, in every good state), EOP is `eop` and CRC is `crc`; after reset they read 0x0000,
0x00 and 0xFFFF. -/
def Obligations.LenEopCrcPorts : Prop :=
  (∀ s, readPort .len s = .half (BitVec.ofNat 16 s.flen) ∧ readPort .eop s = .byte s.err.eop ∧
    readPort .crc s = .half s.crc) ∧
  (∀ s, s.Inv → (lenOut s).toNat = s.flen) ∧
  ∀ cap, lenOut (State.resetOf cap) = 0x0000#16 ∧ eopOut (State.resetOf cap) = 0x00#8 ∧
    crcOut (State.resetOf cap) = 0xFFFF#16

/-- R31: the FRAME port answers the frame's byte below `flen` and a free draw from there on, `frame_addr ≥ FRAME_CAP`
included; it never faults and changes no state. -/
def Obligations.FramePortReads : Prop :=
  (∀ s (addr : Half), addr.toNat < s.flen → frameOut addr s = memRead s addr.toNat) ∧
  (∀ s (addr : Half), s.flen ≤ addr.toNat → frameOut addr s = Config.frameDraw s.draws) ∧
  ∀ s addr rest, s.events = .read (.frame addr) :: rest →
    hostReads s = some (.byte (frameOut addr s)) ∧
    ∃ t, step s = .next t ∧ t = { s with events := rest, draws := t.draws }

/-- R32: a read has no side effect, so a second read of the same port answers the same, except at an unspecified FRAME
index, where the second read is a draw of its own. -/
def Obligations.ReadsHaveNoSideEffect : Prop :=
  ∀ s p rest, s.events = .read p :: rest →
    hostReads s = some (readPort p s) ∧
    ∃ t, step s = .next t ∧ t = { s with events := rest, draws := t.draws } ∧
      ((∀ addr, p = .frame addr → addr.toNat < s.flen) → t.draws = s.draws ∧ readPort p t = readPort p s) ∧
      (∀ addr, p = .frame addr → s.flen ≤ addr.toNat → t.draws = s.draws + 1)

/-- R107: while the host holds `cmd_valid = 0` the state is unchanged. -/
def Obligations.IdleLeavesTheStateUnchanged : Prop :=
  (∀ s, s.events = [] → step s = .next s) ∧
  ∀ s rest, s.events = .idle :: rest → step s = .next { s with events := rest }

/-- R114: one of the words offered is accepted, the stable one when the host holds it, and never a mix; a host that
takes `cmd_valid` back has offered nothing. -/
def Obligations.OneOfferedWordIsAccepted : Prop :=
  (∀ s cw changed rest, s.events = .offer cw changed :: rest → s.cmdReady = true →
    ∃ cw' ∈ cw :: changed, ∃ draws, step s = issue cw' { s with events := rest, draws := draws }) ∧
  (∀ s cw rest, Accepts s cw rest → step s = issue cw { s with events := rest }) ∧
  ∀ s cw changed rest, s.events = .withdraw cw changed :: rest → step s = .next { s with events := rest }

/-- A clock edge with `rst` at 1 gives every element its reset value, leaves the buffer's contents unspecified and drives
`cmd_ready` to 0, which returns to 1 afterwards; nothing else clears a sticky bit.  (R35, R108)
The model's own clauses: a free value stands at every index of the buffer, whose list is empty in State.reset (log
entry 4); the capacity is kept (log entry 1), and so are the schedule (log entry 3) and the count of draws, while the
count of resets goes up by one (log entry 7); `releaseRst` changes `cmd_ready` alone (log entry 12). -/
def Obligations.ResetSetsEveryElement : Prop :=
  (∀ s rest, s.events = .assertRst :: rest →
    ∃ t, step s = .next t ∧
      t.crc = 0xFFFF#16 ∧ t.flen = 0 ∧ t.estate = .idle ∧ t.crcMatch = false ∧
      t.err.ill = false ∧ t.err.seq = false ∧ t.err.ovf = false ∧ t.err.cause = none ∧ t.err.eop = 0x00#8 ∧
      t.cmdReady = false ∧ (∀ a, memRead t a = Config.fbufAfterReset t.resets a) ∧ t.resets = s.resets + 1 ∧
      t.frameCap = s.frameCap ∧ t.events = rest ∧ t.draws = s.draws) ∧
  (∀ s rest, s.events = .releaseRst :: rest → step s = .next { s with events := rest, cmdReady := true }) ∧
  (∀ s t k, step s = .next t → s.err.sticky k = true → t.err.sticky k = false →
    ∃ rest, s.events = .assertRst :: rest) ∧
  (State.reset.crc = 0xFFFF#16 ∧ State.reset.flen = 0 ∧ State.reset.estate = .idle ∧ State.reset.crcMatch = false ∧
    State.reset.err = .clear ∧ State.reset.cmdReady = true ∧ State.reset.fbuf = [])

/-- R109: no command is accepted while reset is asserted; a word offered then has no effect, and the first command
accepted after reset sees exactly the reset state. -/
def Obligations.NoCommandIsAcceptedInReset : Prop :=
  (∀ s cw changed rest, s.events = .offer cw changed :: rest → s.cmdReady = false →
    step s = .next { s with events := rest }) ∧
  ∀ s cw changed, runEvents [.assertRst, .offer cw changed, .releaseRst] s =
    .next { State.resetOf s.frameCap with draws := s.draws, resets := s.resets + 1 }

/-! ### The invariant -/

/-- The invariant holds right after reset, for every allowed capacity. -/
def Obligations.InvariantHoldsAtReset : Prop :=
  State.reset.Inv ∧ ∀ cap, Config.frameCapOk cap = true → (State.resetOf cap).Inv

/-- R36 (and with it R88's bounds): every step keeps the invariant, whatever the event, and a reset makes it hold from
any state whose capacity is allowed. -/
def Obligations.StepKeepsTheInvariant : Prop :=
  (∀ s t, s.Inv → step s = .next t → t.Inv) ∧
  ∀ s rest, Config.frameCapOk s.frameCap = true → s.events = .assertRst :: rest → ∃ t, step s = .next t ∧ t.Inv

/-- From a good state no step stops: the block goes on after every event.  (R91, R31; the fault is never reached) -/
def Obligations.GoodStatesNeverStop : Prop :=
  ∀ s, s.Inv → ∃ t, step s = .next t

/-! ### Order -/

/-- What an event does does not depend on the events that come after it.  (R48; the schedule is the model's, log
entry 3) -/
def Obligations.EventsDoNotSeeTheFuture : Prop :=
  ∀ e (s : State) later, onEvent e { s with events := later } =
    mapNext (fun t => { t with events := later }) (onEvent e s)

/-- From a good state every event of the host is taken, one step each, and the block is in a good state after them; and
a word that is offered and kept up after any events, to a block that is then out of reset, is accepted: it is performed,
or raises its error, and the block goes on.  (R16, R118; the schedule and the untimed step are the model's, log entries
2 and 3) -/
def Obligations.EveryEventIsTaken : Prop :=
  (∀ (s : State) es, s.Inv → ∃ t, runEvents es s = .next t ∧ t.events = [] ∧ t.Inv) ∧
  ∀ (s : State) before cw, s.Inv → ∃ t, runEvents before s = .next t ∧
    (t.cmdReady = true →
      runEvents (before ++ [.offer cw []]) s = issue cw t ∧ ∃ u, issue cw t = .next u)

/-- A read returns the state after every command accepted before it, and before any accepted after it.  (R48) -/
def Obligations.ReadsSeeEveryEarlierCommand : Prop :=
  ∀ (s : State) before p after, s.Inv → ∃ t, runEvents before s = .next t ∧
    Host.Core.run Sys2Proof.core before.length { s with events := before ++ .read p :: after } =
      .next { t with events := .read p :: after } ∧
    hostReads { t with events := .read p :: after } = some (readPort p t)

/-! ### The assembler -/

/-- R64: the two pseudo-instructions expand to the commands the rule gives. -/
def Obligations.PseudoInstructionsExpand : Prop :=
  (∀ (b0 : Byte) (bs : List Byte), assembleLine (.crcBlock ((b0 :: bs).map BitVec.toNat)) =
    some (offerOf .crcInit :: (b0 :: bs).map (fun b => offerOf (.crcByte b)))) ∧
  ∀ r0 r1 : Byte, assembleLine (.crcCheck r0.toNat r1.toNat) = some [offerOf (.crcCmp (r1 ++ r0))]

/-- The assembler's table of commands: each line gives its word, a negative `enc.i32` operand its two's-complement
pattern, and an operand that does not fit its field gives no word.  (R63) -/
def Obligations.AssemblerGivesTheTableWords : Prop :=
  assembleLine .crcInit = some [.offer 0x0100000000#40 []] ∧
  assembleLine .encFinal = some [.offer 0x1300000000#40 []] ∧
  (∀ b, assembleLine (.crcByte b) = if b < 256 then some [.offer (BitVec.ofNat 40 (0x0200000000 + b)) []] else none) ∧
  (∀ h, assembleLine (.crcCmp h) = if h < 65536 then some [.offer (BitVec.ofNat 40 (0x0300000000 + h)) []] else none) ∧
  (∀ adr fc, assembleLine (.encNew adr fc) =
    if adr < 256 ∧ fc < 256 then some [.offer (BitVec.ofNat 40 (0x1000000000 + 256 * adr + fc)) []] else none) ∧
  (∀ h, assembleLine (.encU16 h) = if h < 65536 then some [.offer (BitVec.ofNat 40 (0x1100000000 + h)) []] else none) ∧
  (∀ w : Nat, w < 2 ^ 32 →
    assembleLine (.encI32 w) = some [.offer (BitVec.ofNat 40 (0x1200000000 + w)) []]) ∧
  (∀ n : Nat, 1 ≤ n → n ≤ 2 ^ 31 →
    assembleLine (.encI32 (-n)) = some [.offer (BitVec.ofNat 40 (0x1300000000 - n)) []]) ∧
  (∀ w : Int, w < -2 ^ 31 ∨ 2 ^ 32 ≤ w → assembleLine (.encI32 w) = none) ∧
  (∀ b, assembleLine (.encU8 b) = if b < 256 then some [.offer (BitVec.ofNat 40 (0x1400000000 + b)) []] else none) ∧
  ∀ w, assembleLine (.cmd w) = if w < 2 ^ 40 then some [.offer (BitVec.ofNat 40 w) []] else none
end

