-- ==== Sys2Proof/Laws/Crc.lean ====
section
/-! SUPPORT. The CRC iteration as a linear map, and the fold over a byte sequence. -/

namespace Sys2Proof.Machine

/-- A register whose bit 0 is set is shifted, and then takes the polynomial. -/
theorem crcShift_of_odd {c : Half} (h : c.getLsbD 0 = true) : crcShift c = (c >>> 1) ^^^ 0xA001#16 := if_pos h

/-- A register whose bit 0 is clear is only shifted. -/
theorem crcShift_of_even {c : Half} (h : c.getLsbD 0 = false) : crcShift c = c >>> 1 := if_neg (by rw [h]; decide)

/-- One iteration is linear over GF(2) (the step behind R73). -/
theorem crcShift_xor (c d : Half) : crcShift (c ^^^ d) = crcShift c ^^^ crcShift d := by
  have hx : (c ^^^ d).getLsbD 0 = (c.getLsbD 0 ^^ d.getLsbD 0) := BitVec.getLsbD_xor
  cases hc : c.getLsbD 0 <;> cases hd : d.getLsbD 0 <;> rw [hc, hd] at hx
  · rw [crcShift_of_even hx, crcShift_of_even hc, crcShift_of_even hd, BitVec.ushiftRight_xor_distrib]
  · rw [crcShift_of_odd hx, crcShift_of_even hc, crcShift_of_odd hd, BitVec.ushiftRight_xor_distrib, BitVec.xor_assoc]
  · rw [crcShift_of_odd hx, crcShift_of_odd hc, crcShift_of_even hd, BitVec.ushiftRight_xor_distrib, BitVec.xor_assoc,
      BitVec.xor_assoc, BitVec.xor_comm (d >>> 1)]
  · rw [crcShift_of_even hx, crcShift_of_odd hc, crcShift_of_odd hd, BitVec.ushiftRight_xor_distrib]
    rw [BitVec.xor_assoc, ← BitVec.xor_assoc 0xA001#16, BitVec.xor_comm 0xA001#16, BitVec.xor_assoc (d >>> 1),
      BitVec.xor_self, BitVec.xor_zero]

theorem crcShifts_xor (k : Nat) (c d : Half) : crcShifts k (c ^^^ d) = crcShifts k c ^^^ crcShifts k d := by
  induction k generalizing c d with
  | zero => rfl
  | succ k ih => rw [crcShifts, crcShift_xor, ih]; rfl

theorem crcShifts_add (j k : Nat) (c : Half) : crcShifts (j + k) c = crcShifts k (crcShifts j c) := by
  induction j generalizing c with
  | zero => rw [Nat.zero_add]; rfl
  | succ j ih => rw [Nat.succ_add, crcShifts, ih]; rfl

/-- Iterations that meet only clear bits are one shift. -/
theorem crcShifts_of_clear {k : Nat} {c : Half} (h : ∀ i < k, c.getLsbD i = false) : crcShifts k c = c >>> k := by
  induction k generalizing c with
  | zero => simp [crcShifts]
  | succ k ih =>
    rw [crcShifts, crcShift_of_even (h 0 (by omega)), ih, ← BitVec.shiftRight_add, Nat.add_comm]
    intro i hi
    rw [BitVec.getLsbD_ushiftRight]
    exact h (1 + i) (by omega)

@[simp] theorem crcFrom_nil (c : Half) : crcFrom c [] = c := rfl

@[simp] theorem crcFrom_cons (c : Half) (b : Byte) (bs : List Byte) : crcFrom c (b :: bs) = crcFrom (crcStep c b) bs :=
  rfl

theorem crcFrom_append (c : Half) (xs ys : List Byte) : crcFrom c (xs ++ ys) = crcFrom (crcFrom c xs) ys :=
  List.foldl_append

theorem crc16_append (xs ys : List Byte) : crc16 (xs ++ ys) = crcFrom (crc16 xs) ys :=
  crcFrom_append _ xs ys

end Sys2Proof.Machine
end

