-- ==== Sys2Proof/Laws/Decode.lean ====
section
/-! SUPPORT. The fields of a word, and the decoder opcode by opcode. -/

namespace Sys2Proof

/-! ### Words and their fields -/

@[simp] theorem opOf_wordOf (op : Opcode) (arg : Arg) : opOf (wordOf op arg) = op := by
  simp only [opOf, wordOf]
  ext i hi
  rw [BitVec.getElem_extractLsb', BitVec.getLsbD_append]
  simp [hi]

@[simp] theorem argOf_wordOf (op : Opcode) (arg : Arg) : argOf (wordOf op arg) = arg := by
  simp only [argOf, wordOf]
  ext i hi
  rw [BitVec.getElem_extractLsb', BitVec.getLsbD_append]
  simp [hi]

/-- A word is its two fields. -/
theorem wordOf_fields (cw : CmdWord) : wordOf (opOf cw) (argOf cw) = cw := by
  simp only [opOf, argOf, wordOf]
  ext i hi
  simp only [BitVec.getElem_append, BitVec.getElem_extractLsb']
  split
  · simp [BitVec.getLsbD_eq_getElem hi]
  · next h => rw [show 32 + (i - 32) = i by omega, BitVec.getLsbD_eq_getElem hi]

/-! ### The sub-fields of an operand -/

@[simp] theorem fieldB_zeros (b : Byte) : fieldB (0#24 ++ b) = b := by
  ext i hi
  rw [fieldB, BitVec.getElem_extractLsb', BitVec.getLsbD_append]
  simp [hi]

@[simp] theorem clearB_zeros (b : Byte) : clearB (0#24 ++ b) = true := by
  simp only [clearB, beq_iff_eq]
  ext i hi
  rw [BitVec.getElem_extractLsb', BitVec.getLsbD_append]
  simp

@[simp] theorem fieldH_zeros (h : Half) : fieldH (0#16 ++ h) = h := by
  ext i hi
  rw [fieldH, BitVec.getElem_extractLsb', BitVec.getLsbD_append]
  simp [hi]

@[simp] theorem clearH_zeros (h : Half) : clearH (0#16 ++ h) = true := by
  simp only [clearH, beq_iff_eq]
  ext i hi
  rw [BitVec.getElem_extractLsb', BitVec.getLsbD_append]
  simp

theorem fieldB_of_clearB {arg : Arg} (h : clearB arg = true) : 0#24 ++ fieldB arg = arg := by
  simp only [clearB, beq_iff_eq] at h
  refine BitVec.eq_of_getLsbD_eq fun i hi => ?_
  have := congrArg (fun v => v.getLsbD (i - 8)) h
  simp only [fieldB, BitVec.getLsbD_append, BitVec.getLsbD_extractLsb'] at this ⊢
  split
  · simp [*]
  · simp only [BitVec.getLsbD_zero, show 8 + (i - 8) = i by omega] at this ⊢
    simpa [show i - 8 < 24 by omega] using this.symm

theorem fieldH_of_clearH {arg : Arg} (h : clearH arg = true) : 0#16 ++ fieldH arg = arg := by
  simp only [clearH, beq_iff_eq] at h
  refine BitVec.eq_of_getLsbD_eq fun i hi => ?_
  have := congrArg (fun v => v.getLsbD (i - 16)) h
  simp only [fieldH, BitVec.getLsbD_append, BitVec.getLsbD_extractLsb'] at this ⊢
  split
  · simp [*]
  · simp only [BitVec.getLsbD_zero, show 16 + (i - 16) = i by omega] at this ⊢
    simpa [show i - 16 < 16 by omega] using this.symm

/-- Form A is form H with its half split in two. -/
theorem fieldH_eq_address (arg : Arg) : fieldH arg = fieldAdr arg ++ fieldFc arg := by
  refine BitVec.eq_of_getLsbD_eq fun i hi => ?_
  simp only [fieldH, fieldAdr, fieldFc, BitVec.getLsbD_append, BitVec.getLsbD_extractLsb']
  split
  · simp [*]
  · simp only [show 8 + (i - 8) = i by omega]; simp [show i - 8 < 8 by omega, hi]

@[simp] theorem fieldAdr_zeros (adr fc : Byte) : fieldAdr (0#16 ++ adr ++ fc) = adr := by
  ext i hi
  simp only [fieldAdr, BitVec.getElem_extractLsb', BitVec.getLsbD_append]
  simp [hi]

@[simp] theorem fieldFc_zeros (adr fc : Byte) : fieldFc (0#16 ++ adr ++ fc) = fc := by
  ext i hi
  simp only [fieldFc, BitVec.getElem_extractLsb', BitVec.getLsbD_append]
  simp [hi]

theorem addressArg_eq (adr fc : Byte) : (0#16 ++ adr ++ fc : Arg) = 0#16 ++ (adr ++ fc : Half) := by
  refine BitVec.eq_of_getLsbD_eq fun i hi => ?_
  simp only [BitVec.getLsbD_append]
  split
  · simp [show i < 16 by omega]
  · split
    · simp [show i < 16 by omega]
    · simp [show ¬ i < 16 by omega]

@[simp] theorem clearH_address (adr fc : Byte) : clearH (0#16 ++ adr ++ fc) = true := by
  rw [addressArg_eq, clearH_zeros]

/-! ### The verdict of R58, by the fields of a word -/

theorem legal_wordOf (op : Opcode) (arg : Arg) :
    legal (wordOf op arg) =
      match op.toNat with
      | 0x01 => clearN arg
      | 0x02 => clearB arg
      | 0x03 => clearH arg
      | 0x10 => clearH arg
      | 0x11 => clearH arg
      | 0x12 => true
      | 0x13 => clearN arg
      | 0x14 => clearB arg
      | _ => false := by
  have ho : (wordOf op arg).extractLsb' 32 8 = op := opOf_wordOf op arg
  have ha : (wordOf op arg).extractLsb' 0 32 = arg := argOf_wordOf op arg
  have hb : (wordOf op arg).extractLsb' 8 24 = arg.extractLsb' 8 24 := by
    conv => rhs; rw [← ha]
    ext i hi
    simp [BitVec.getElem_extractLsb']
  have hh : (wordOf op arg).extractLsb' 16 16 = arg.extractLsb' 16 16 := by
    conv => rhs; rw [← ha]
    ext i hi
    simp [BitVec.getElem_extractLsb']
  simp only [legal, ho, ha, hb, hh, clearN, clearB, clearH] <;> rfl

/-! ### The decoder, opcode by opcode (R57, R58) -/

theorem decode_crcInit (arg : Arg) : decode (wordOf 0x01#8 arg) = ifClear (clearN arg) .crcInit := by
  simp [decode]

theorem decode_crcByte (arg : Arg) : decode (wordOf 0x02#8 arg) = ifClear (clearB arg) (.crcByte (fieldB arg)) := by
  simp [decode]

theorem decode_crcCmp (arg : Arg) : decode (wordOf 0x03#8 arg) = ifClear (clearH arg) (.crcCmp (fieldH arg)) := by
  simp [decode]

theorem decode_encNew (arg : Arg) :
    decode (wordOf 0x10#8 arg) = ifClear (clearH arg) (.encNew (fieldAdr arg) (fieldFc arg)) := by
  simp [decode]

theorem decode_encU16 (arg : Arg) : decode (wordOf 0x11#8 arg) = ifClear (clearH arg) (.encU16 (fieldH arg)) := by
  simp [decode]

theorem decode_encI32 (arg : Arg) : decode (wordOf 0x12#8 arg) = .command (.encI32 arg) := by
  simp [decode]

theorem decode_encFinal (arg : Arg) : decode (wordOf 0x13#8 arg) = ifClear (clearN arg) .encFinal := by
  simp [decode]

theorem decode_encU8 (arg : Arg) : decode (wordOf 0x14#8 arg) = ifClear (clearB arg) (.encU8 (fieldB arg)) := by
  simp [decode]

end Sys2Proof
end

