-- ==== Sys2Proof/Laws/Memory.lean ====
section
/-! SUPPORT. The laws of the frame buffer: a read after a write, the canonical form, and several bytes at once. -/

namespace Sys2Proof.Machine

namespace Memory

@[simp] theorem read?_put_same (m : Memory) (i : Nat) (v : Byte) : read? (put m i v) i = some v := by
  induction m with
  | nil => simp [put, read?]
  | cons c m ih =>
    obtain ⟨a, b⟩ := c
    simp only [put]
    split
    · simp [read?]
    · split
      · simp [read?]
      · next h h' => simp [read?, ih, Ne.symm h']

theorem read?_put_other (m : Memory) {i j : Nat} (v : Byte) (h : j ≠ i) : read? (put m i v) j = read? m j := by
  induction m with
  | nil => simp [put, read?, Ne.symm h]
  | cons c m ih =>
    obtain ⟨a, b⟩ := c
    simp only [put]
    split
    · simp [read?, Ne.symm h]
    · split
      · next h' => subst h'; simp [read?, Ne.symm h]
      · simp [read?, ih]

theorem mem_put {m : Memory} {i : Nat} {v : Byte} {c : Host.Cell} (h : c ∈ put m i v) : c = (i, v) ∨ c ∈ m := by
  induction m with
  | nil => simpa [put] using h
  | cons d m ih =>
    obtain ⟨a, b⟩ := d
    simp only [put] at h
    split at h
    · simpa using h
    · split at h
      · simp only [List.mem_cons] at h ⊢
        tauto
      · simp only [List.mem_cons] at h ⊢
        rcases h with h | h
        · exact .inr (.inl h)
        · exact (ih h).imp id .inr

/-- A write keeps the canonical form. -/
theorem put_wf {m : Memory} (h : m.wf) (i : Nat) (v : Byte) : (put m i v : Memory).wf := by
  induction m with
  | nil => simp [put, wf]
  | cons d m ih =>
    obtain ⟨a, b⟩ := d
    obtain ⟨hd, ht⟩ := List.pairwise_cons.mp h
    simp only [put]
    split
    · next hi =>
      refine List.pairwise_cons.mpr ⟨fun c hc => ?_, h⟩
      rcases List.mem_cons.mp hc with rfl | hc
      · exact hi
      · exact Nat.lt_trans hi (hd c hc)
    · split
      · next _ hi => subst hi; exact List.pairwise_cons.mpr ⟨hd, ht⟩
      · next hi hi' =>
        refine List.pairwise_cons.mpr ⟨fun c hc => ?_, ih ht⟩
        rcases mem_put hc with rfl | hc
        · simp only; omega
        · exact hd c hc

/-- Bytes written one after the other from index `i` up. -/
def putAll : Memory → Nat → List Byte → Memory
  | m, _, [] => m
  | m, i, b :: bs => putAll (put m i b) (i + 1) bs

theorem read?_putAll_outside (m : Memory) (i : Nat) (bs : List Byte) {a : Nat} (h : a < i ∨ i + bs.length ≤ a) :
    read? (putAll m i bs) a = read? m a := by
  induction bs generalizing m i with
  | nil => rfl
  | cons b bs ih =>
    simp only [List.length_cons] at h
    rw [putAll, ih _ _ (by omega), read?_put_other _ _ (by omega)]

theorem read?_putAll_inside (m : Memory) (i : Nat) (bs : List Byte) (k : Nat) (h : k < bs.length) :
    read? (putAll m i bs) (i + k) = some bs[k] := by
  induction bs generalizing m i k with
  | nil => simp at h
  | cons b bs ih =>
    rw [putAll]
    cases k with
    | zero => rw [read?_putAll_outside _ _ _ (by omega)]; simp
    | succ k =>
      have := ih (put m i b) (i + 1) k (by simpa using h)
      rw [show i + (k + 1) = i + 1 + k by omega, this]; simp

theorem putAll_wf {m : Memory} (h : m.wf) (i : Nat) (bs : List Byte) : (putAll m i bs : Memory).wf := by
  induction bs generalizing m i with
  | nil => exact h
  | cons b bs ih => exact ih (put_wf h i b) (i + 1)

theorem putAll_inside {m : Memory} {n : Nat} (h : ∀ c ∈ m, c.1 < n) {i : Nat} {bs : List Byte}
    (hi : i + bs.length ≤ n) : ∀ c ∈ (putAll m i bs : Memory), c.1 < n := by
  induction bs generalizing m i with
  | nil => exact h
  | cons b bs ih =>
    simp only [List.length_cons] at hi
    refine ih (fun c hc => ?_) (by omega)
    rcases mem_put hc with rfl | hc
    · simp only; omega
    · exact h c hc

end Memory

/-- Bytes that fit in the buffer are written. -/
theorem memWriteAll_inside (s : State) (i : Nat) (bs : List Byte) (h : i + bs.length ≤ s.frameCap) :
    memWriteAll i bs s = .ok { s with fbuf := Memory.putAll s.fbuf i bs } := by
  induction bs generalizing i s with
  | nil => rfl
  | cons b bs ih =>
    simp only [List.length_cons] at h
    have hb : memWrite i b s = .ok { s with fbuf := Memory.put s.fbuf i b } := if_pos (by omega)
    rw [memWriteAll, hb]
    exact ih _ (i + 1) (by simp only; omega)

/-- Bytes that pass the end of the buffer are not. -/
theorem memWriteAll_outside (s : State) (i : Nat) (bs : List Byte) (hne : bs ≠ []) (h : s.frameCap < i + bs.length) :
    memWriteAll i bs s = .error .outsideFrameBuffer := by
  induction bs generalizing i s with
  | nil => exact absurd rfl hne
  | cons b bs ih =>
    simp only [List.length_cons] at h
    by_cases hi : i < s.frameCap
    · have hb : memWrite i b s = .ok { s with fbuf := Memory.put s.fbuf i b } := if_pos hi
      rw [memWriteAll, hb]
      exact ih _ (i + 1) (by rintro rfl; simp at h; omega) (by simp only; omega)
    · have hb : memWrite i b s = .error .outsideFrameBuffer := if_neg hi
      rw [memWriteAll, hb]

end Sys2Proof.Machine
end

