-- ==== Sys2Proof/Laws/Frame.lean ====
section
/-! SUPPORT. What the shared operations of the encoder can do, said once: `writeFrame`, `appendPayload`, `frameBytes`. -/

namespace Sys2Proof.Machine

/-! ### Reading the buffer -/

theorem memRead_putAll_inside {s t : State} {i : Nat} {bs : List Byte} (h : t.fbuf = Memory.putAll s.fbuf i bs)
    (k : Nat) (hk : k < bs.length) : memRead t (i + k) = bs[k] := by
  simp [memRead, h, Memory.read?_putAll_inside _ _ _ _ hk]

theorem memRead_putAll_outside {s t : State} {i : Nat} {bs : List Byte} (h : t.fbuf = Memory.putAll s.fbuf i bs)
    (hr : t.resets = s.resets) {a : Nat} (ha : a < i ∨ i + bs.length ≤ a) : memRead t a = memRead s a := by
  simp [memRead, h, hr, Memory.read?_putAll_outside _ _ _ ha]

theorem wroteBytes_putAll {s t : State} {i : Nat} {bs : List Byte} (h : t.fbuf = Memory.putAll s.fbuf i bs)
    (hr : t.resets = s.resets) : WroteBytes i bs s t :=
  ⟨fun k hk => memRead_putAll_inside h k hk, fun _ ha => memRead_putAll_outside h hr ha⟩

/-! ### The frame -/

@[simp] theorem frameBytes_length (s : State) : (frameBytes s).length = s.flen := by simp [frameBytes]

@[simp] theorem frameBytes_getElem (s : State) (k : Nat) (h : k < (frameBytes s).length) :
    (frameBytes s)[k] = memRead s k := by simp [frameBytes]

theorem frameBytes_congr {s t : State} (hlen : t.flen = s.flen) (h : ∀ i < s.flen, memRead t i = memRead s i) :
    frameBytes t = frameBytes s := by
  refine List.ext_getElem (by simp [hlen]) fun k hk _ => ?_
  simp only [frameBytes_getElem]
  exact h k (by simpa [hlen] using hk)

/-- Bytes written at the end of the frame lengthen it. -/
theorem frameBytes_of_wrote {s t : State} {bs : List Byte} (hlen : t.flen = s.flen + bs.length)
    (h : WroteBytes s.flen bs s t) : frameBytes t = frameBytes s ++ bs := by
  refine List.ext_getElem (by simp [hlen]) fun k hk _ => ?_
  simp only [frameBytes_length, hlen] at hk
  rw [frameBytes_getElem, List.getElem_append]
  split
  · next hk' => rw [frameBytes_getElem]; exact h.2 k (.inl (by simpa using hk'))
  · next hk' =>
    simp only [frameBytes_length, Nat.not_lt] at hk'
    obtain ⟨d, rfl⟩ := Nat.exists_eq_add_of_le hk'
    simpa using h.1 d (by omega)

/-- The frame after an append. -/
theorem frameBytes_putAll (s : State) (bs : List Byte) (e : EncState) :
    frameBytes { s with fbuf := Memory.putAll s.fbuf s.flen bs, flen := s.flen + bs.length, estate := e } =
      frameBytes s ++ bs :=
  frameBytes_of_wrote rfl (wroteBytes_putAll rfl rfl)

/-! ### The writes of the encoder -/

/-- The write of a successful encoder command. -/
theorem writeFrame_inside (s : State) (i : Nat) (bs : List Byte) (len : Nat) (e : EncState)
    (h : i + bs.length ≤ s.frameCap) :
    writeFrame i bs len e s = .next { s with fbuf := Memory.putAll s.fbuf i bs, flen := len, estate := e } := by
  rw [writeFrame, memWriteAll_inside s i bs h]

theorem writeFrame_outside (s : State) (i : Nat) (bs : List Byte) (len : Nat) (e : EncState) (hne : bs ≠ [])
    (h : s.frameCap < i + bs.length) : writeFrame i bs len e s = .fault .outsideFrameBuffer := by
  rw [writeFrame, memWriteAll_outside s i bs hne h]

/-- Everything `writeFrame` can do. -/
theorem writeFrame_cases (s : State) (i : Nat) (bs : List Byte) (len : Nat) (e : EncState) (hne : bs ≠ []) :
    (i + bs.length ≤ s.frameCap ∧
        writeFrame i bs len e s = .next { s with fbuf := Memory.putAll s.fbuf i bs, flen := len, estate := e }) ∨
      (s.frameCap < i + bs.length ∧ writeFrame i bs len e s = .fault .outsideFrameBuffer) := by
  rcases Nat.lt_or_ge s.frameCap (i + bs.length) with h | h
  · exact .inr ⟨h, writeFrame_outside s i bs len e hne h⟩
  · exact .inl ⟨h, writeFrame_inside s i bs len e h⟩

theorem appendPayload_seq (op : Opcode) (bs : List Byte) {s : State} (h : s.estate ≠ .build) :
    appendPayload op bs s = .next (raiseError .seq op s) := if_pos h

theorem appendPayload_ovf (op : Opcode) {bs : List Byte} {s : State} (h : s.estate = .build)
    (hroom : s.frameCap < s.flen + bs.length + 2) : appendPayload op bs s = .next (raiseError .ovf op s) := by
  rw [appendPayload, if_neg (by simp [h]), if_pos (by simp [roomFor]; omega)]

theorem appendPayload_room (op : Opcode) {bs : List Byte} {s : State} (h : s.estate = .build)
    (hroom : s.flen + bs.length + 2 ≤ s.frameCap) :
    appendPayload op bs s =
      .next { s with fbuf := Memory.putAll s.fbuf s.flen bs, flen := s.flen + bs.length, estate := .build } := by
  rw [appendPayload, if_neg (by simp [h]), if_neg (by simp [roomFor, hroom]), writeFrame_inside _ _ _ _ _ (by omega)]

/-- Everything an append can do: SEQ, OVF, or the bytes (R81 to R83). -/
theorem appendPayload_cases (op : Opcode) (bs : List Byte) (s : State) :
    (s.estate ≠ .build ∧ appendPayload op bs s = .next (raiseError .seq op s)) ∨
      (s.estate = .build ∧ s.frameCap < s.flen + bs.length + 2 ∧
        appendPayload op bs s = .next (raiseError .ovf op s)) ∨
      (s.estate = .build ∧ s.flen + bs.length + 2 ≤ s.frameCap ∧
        appendPayload op bs s =
          .next { s with fbuf := Memory.putAll s.fbuf s.flen bs, flen := s.flen + bs.length, estate := .build }) := by
  by_cases h : s.estate = .build
  · rcases Nat.lt_or_ge s.frameCap (s.flen + bs.length + 2) with hr | hr
    · exact .inr (.inl ⟨h, hr, appendPayload_ovf op h hr⟩)
    · exact .inr (.inr ⟨h, hr, appendPayload_room op h hr⟩)
  · exact .inl ⟨h, appendPayload_seq op bs h⟩

/-- Everything ENC_FINAL can do (R84). -/
theorem execEncFinal_cases (s : State) :
    (s.estate ≠ .build ∧ execEncFinal s = .next (raiseError .seq 0x13#8 s)) ∨
      (s.estate = .build ∧ s.flen + 2 ≤ s.frameCap ∧
        execEncFinal s =
          .next { s with
            fbuf := Memory.putAll s.fbuf s.flen (lowFirst (crc16 (frameBytes s))), flen := s.flen + 2, estate := .done }) ∨
      (s.estate = .build ∧ s.frameCap < s.flen + 2 ∧ execEncFinal s = .fault .outsideFrameBuffer) := by
  by_cases h : s.estate = .build
  · have e : execEncFinal s = writeFrame s.flen (lowFirst (crc16 (frameBytes s))) (s.flen + 2) .done s :=
      if_neg (by simp [h])
    rcases Nat.lt_or_ge s.frameCap (s.flen + 2) with hr | hr
    · exact .inr (.inr ⟨h, hr, e.trans (writeFrame_outside _ _ _ _ _ (by simp [lowFirst]) hr)⟩)
    · exact .inr (.inl ⟨h, hr, e.trans (writeFrame_inside _ _ _ _ _ hr)⟩)
  · exact .inl ⟨h, if_pos h⟩

end Sys2Proof.Machine
end

