-- ==== Sys2Proof/Laws/State.lean ====
section
/-! SUPPORT. One lemma per field for each named update of the state. -/

namespace Sys2Proof.Machine

/-! ### The state after reset -/

@[simp] theorem resetOf_frameCap (cap : Nat) : (State.resetOf cap).frameCap = cap := rfl
@[simp] theorem resetOf_crc (cap : Nat) : (State.resetOf cap).crc = 0xFFFF#16 := rfl
@[simp] theorem resetOf_crcMatch (cap : Nat) : (State.resetOf cap).crcMatch = false := rfl
@[simp] theorem resetOf_fbuf (cap : Nat) : (State.resetOf cap).fbuf = [] := rfl
@[simp] theorem resetOf_flen (cap : Nat) : (State.resetOf cap).flen = 0 := rfl
@[simp] theorem resetOf_estate (cap : Nat) : (State.resetOf cap).estate = .idle := rfl
@[simp] theorem resetOf_err (cap : Nat) : (State.resetOf cap).err = .clear := rfl
@[simp] theorem resetOf_cmdReady (cap : Nat) : (State.resetOf cap).cmdReady = true := rfl
@[simp] theorem resetOf_events (cap : Nat) : (State.resetOf cap).events = [] := rfl
@[simp] theorem resetOf_draws (cap : Nat) : (State.resetOf cap).draws = 0 := rfl
@[simp] theorem resetOf_resets (cap : Nat) : (State.resetOf cap).resets = 0 := rfl

/-! ### Raising an error -/

@[simp] theorem raiseError_frameCap (e : ErrKind) (op : Opcode) (s : State) : (raiseError e op s).frameCap = s.frameCap := rfl
@[simp] theorem raiseError_crc (e : ErrKind) (op : Opcode) (s : State) : (raiseError e op s).crc = s.crc := rfl
@[simp] theorem raiseError_crcMatch (e : ErrKind) (op : Opcode) (s : State) : (raiseError e op s).crcMatch = s.crcMatch := rfl
@[simp] theorem raiseError_fbuf (e : ErrKind) (op : Opcode) (s : State) : (raiseError e op s).fbuf = s.fbuf := rfl
@[simp] theorem raiseError_flen (e : ErrKind) (op : Opcode) (s : State) : (raiseError e op s).flen = s.flen := rfl
@[simp] theorem raiseError_estate (e : ErrKind) (op : Opcode) (s : State) : (raiseError e op s).estate = s.estate := rfl
@[simp] theorem raiseError_err (e : ErrKind) (op : Opcode) (s : State) : (raiseError e op s).err = s.err.record e op := rfl
@[simp] theorem raiseError_cmdReady (e : ErrKind) (op : Opcode) (s : State) : (raiseError e op s).cmdReady = s.cmdReady := rfl
@[simp] theorem raiseError_events (e : ErrKind) (op : Opcode) (s : State) : (raiseError e op s).events = s.events := rfl
@[simp] theorem raiseError_draws (e : ErrKind) (op : Opcode) (s : State) : (raiseError e op s).draws = s.draws := rfl
@[simp] theorem raiseError_resets (e : ErrKind) (op : Opcode) (s : State) : (raiseError e op s).resets = s.resets := rfl

/-! ### The `rst` input -/

@[simp] theorem applyReset_frameCap (s : State) : (applyReset s).frameCap = s.frameCap := rfl
@[simp] theorem applyReset_crc (s : State) : (applyReset s).crc = 0xFFFF#16 := rfl
@[simp] theorem applyReset_crcMatch (s : State) : (applyReset s).crcMatch = false := rfl
@[simp] theorem applyReset_fbuf (s : State) : (applyReset s).fbuf = [] := rfl
@[simp] theorem applyReset_flen (s : State) : (applyReset s).flen = 0 := rfl
@[simp] theorem applyReset_estate (s : State) : (applyReset s).estate = .idle := rfl
@[simp] theorem applyReset_err (s : State) : (applyReset s).err = .clear := rfl
@[simp] theorem applyReset_cmdReady (s : State) : (applyReset s).cmdReady = false := rfl
@[simp] theorem applyReset_events (s : State) : (applyReset s).events = s.events := rfl
@[simp] theorem applyReset_draws (s : State) : (applyReset s).draws = s.draws := rfl
@[simp] theorem applyReset_resets (s : State) : (applyReset s).resets = s.resets + 1 := rfl

/-! ### Offering a word -/

@[simp] theorem withFetchWord_frameCap (s : State) (nbits w : Nat) : (s.withFetchWord nbits w).frameCap = s.frameCap := rfl
@[simp] theorem withFetchWord_crc (s : State) (nbits w : Nat) : (s.withFetchWord nbits w).crc = s.crc := rfl
@[simp] theorem withFetchWord_crcMatch (s : State) (nbits w : Nat) : (s.withFetchWord nbits w).crcMatch = s.crcMatch := rfl
@[simp] theorem withFetchWord_fbuf (s : State) (nbits w : Nat) : (s.withFetchWord nbits w).fbuf = s.fbuf := rfl
@[simp] theorem withFetchWord_flen (s : State) (nbits w : Nat) : (s.withFetchWord nbits w).flen = s.flen := rfl
@[simp] theorem withFetchWord_estate (s : State) (nbits w : Nat) : (s.withFetchWord nbits w).estate = s.estate := rfl
@[simp] theorem withFetchWord_err (s : State) (nbits w : Nat) : (s.withFetchWord nbits w).err = s.err := rfl
@[simp] theorem withFetchWord_cmdReady (s : State) (nbits w : Nat) : (s.withFetchWord nbits w).cmdReady = true := rfl
@[simp] theorem withFetchWord_events (s : State) (nbits w : Nat) : (s.withFetchWord nbits w).events = .offer (tableWord nbits w) [] :: s.events := rfl
@[simp] theorem withFetchWord_draws (s : State) (nbits w : Nat) : (s.withFetchWord nbits w).draws = s.draws := rfl
@[simp] theorem withFetchWord_resets (s : State) (nbits w : Nat) : (s.withFetchWord nbits w).resets = s.resets := rfl

/-! ### A read -/

/-- A read changes nothing but the count of draws (R32). -/
theorem afterRead_eq (p : ReadPort) (s : State) : afterRead p s = { s with draws := (afterRead p s).draws } := by
  cases p with
  | frame addr => simp only [afterRead]; split <;> rfl
  | _ => rfl

end Sys2Proof.Machine
end

