-- ==== Sys2Proof/Laws/Step.lean ====
section
/-! SUPPORT. What a command and a step can do, said once. -/

namespace Sys2Proof.Machine

@[simp] theorem be16_length (v : Half) : (be16 v).length = 2 := rfl
@[simp] theorem be32_length (v : Arg) : (be32 v).length = 4 := rfl
@[simp] theorem lowFirst_length (c : Half) : (lowFirst c).length = 2 := rfl

/-- The arms of the appends, as one shape. -/
theorem exec_append {i : Instr} {bs : List Byte} (h : appendBytes i = some bs) (s : State) :
    exec i s = appendPayload i.opcode bs s := by
  cases i <;> cases h <;> rfl

/-- An append has at least one byte. -/
theorem appendBytes_ne_nil {i : Instr} {bs : List Byte} (h : appendBytes i = some bs) : bs ≠ [] := by
  cases i <;> cases h <;> simp [be16, be32]

/-- Everything a command that answers a next state has done: from `s` it leads to `t`. -/
inductive Effect : Instr → State → State → Prop where
  | crcInit (s : State) : Effect .crcInit s { s with crc := 0xFFFF#16 }
  | crcByte (b : Byte) (s : State) : Effect (.crcByte b) s { s with crc := crcStep s.crc b }
  | crcCmp (h : Half) (s : State) : Effect (.crcCmp h) s { s with crcMatch := matchFlag s.crc h }
  | encNew (adr fc : Byte) (s : State) (room : 2 ≤ s.frameCap) :
      Effect (.encNew adr fc) s
        { s with fbuf := Memory.putAll s.fbuf 0 [adr, fc], flen := 2, estate := .build }
  | seq (i : Instr) (s : State) (needs : needsBuild i = true) (outside : s.estate ≠ .build) :
      Effect i s (raiseError .seq i.opcode s)
  | ovf (i : Instr) (s : State) (bs : List Byte) (bytes : appendBytes i = some bs) (build : s.estate = .build)
      (full : s.frameCap < s.flen + bs.length + 2) : Effect i s (raiseError .ovf i.opcode s)
  | append (i : Instr) (s : State) (bs : List Byte) (bytes : appendBytes i = some bs) (build : s.estate = .build)
      (room : s.flen + bs.length + 2 ≤ s.frameCap) :
      Effect i s
        { s with fbuf := Memory.putAll s.fbuf s.flen bs, flen := s.flen + bs.length, estate := .build }
  | encFinal (s : State) (build : s.estate = .build) (room : s.flen + 2 ≤ s.frameCap) :
      Effect .encFinal s
        { s with
          fbuf := Memory.putAll s.fbuf s.flen (lowFirst (crc16 (frameBytes s))), flen := s.flen + 2, estate := .done }

theorem effect_of_append {i : Instr} {bs : List Byte} (hb : appendBytes i = some bs) {s t : State}
    (h : exec i s = .next t) : Effect i s t := by
  rw [exec_append hb] at h
  rcases appendPayload_cases i.opcode bs s with ⟨hs, e⟩ | ⟨hs, hr, e⟩ | ⟨hs, hr, e⟩
  all_goals rw [e] at h; cases h
  · exact .seq i s (by simp [needsBuild, hb]) hs
  · exact .ovf i s bs hb hs hr
  · exact .append i s bs hb hs hr

theorem effect_of_exec {i : Instr} {s t : State} (h : exec i s = .next t) : Effect i s t := by
  cases i with
  | crcInit => cases h; exact .crcInit s
  | crcByte b => cases h; exact .crcByte b s
  | crcCmp v => cases h; exact .crcCmp v s
  | encNew adr fc =>
    rcases writeFrame_cases s 0 [adr, fc] 2 .build (by simp) with ⟨hr, e⟩ | ⟨_, e⟩
    · cases (show exec (.encNew adr fc) s = _ from e).symm.trans h
      exact .encNew adr fc s hr
    · cases (show exec (.encNew adr fc) s = _ from e).symm.trans h
  | encU16 v => exact effect_of_append rfl h
  | encI32 v => exact effect_of_append rfl h
  | encU8 b => exact effect_of_append rfl h
  | encFinal =>
    rcases execEncFinal_cases s with ⟨hb, e⟩ | ⟨hb, hr, e⟩ | ⟨_, _, e⟩
    all_goals cases (show exec .encFinal s = _ from e).symm.trans h
    · exact .seq .encFinal s rfl hb
    · exact .encFinal s hb hr

/-! ### Steps -/

theorem step_of_events {s : State} {e : HostEvent} {rest : List HostEvent} (h : s.events = e :: rest) :
    step s = onEvent e { s with events := rest } := by rw [step, h]

theorem step_of_no_events {s : State} (h : s.events = []) : step s = .next s := by rw [step, h]

theorem onEvent_stable_offer (cw : CmdWord) (s : State) (h : s.cmdReady = true) :
    onEvent (.offer cw []) s = issue cw s := if_pos h

/-- The step that accepts a word. -/
theorem step_of_accepts {s : State} {cw : CmdWord} {rest : List HostEvent} (h : Accepts s cw rest) :
    step s = issue cw { s with events := rest } :=
  (step_of_events h.1).trans (onEvent_stable_offer cw _ h.2)

/-- The word accepted is one of those offered (R114). -/
theorem acceptedWord_mem (cw : CmdWord) (changed : List CmdWord) (draw : Nat) :
    acceptedWord cw changed draw ∈ cw :: changed := by
  cases changed with
  | nil => exact List.mem_cons_self
  | cons w ws =>
    have hlt : Config.wordChoice draw % (cw :: w :: ws).length < (cw :: w :: ws).length := Nat.mod_lt _ (by simp)
    simp only [acceptedWord, List.getElem?_eq_getElem hlt, Option.getD_some]
    exact List.getElem_mem hlt

/-- Everything an accepted word that answers a next state has done: its command's effect, or ILL (R58). -/
inductive Issued : CmdWord → State → State → Prop where
  | command {cw : CmdWord} {i : Instr} {s t : State} (decoded : decode cw = .command i) (effect : Effect i s t) :
      Issued cw s t
  | illegal {cw : CmdWord} {why : DecodeError} (s : State) (decoded : decode cw = .illegal why) :
      Issued cw s (raiseError .ill (opOf cw) s)

theorem issued_of_issue {cw : CmdWord} {s t : State} (h : issue cw s = .next t) : Issued cw s t := by
  unfold issue at h
  split at h
  · next hd => exact .command hd (effect_of_exec h)
  · next hd => cases h; exact .illegal s hd

/-- Everything a step that answers a next state has done. -/
inductive Stepped (s : State) : State → Prop where
  | nothing (none : s.events = []) : Stepped s s
  | reset (rest : List HostEvent) (next : s.events = .assertRst :: rest) :
      Stepped s (applyReset { s with events := rest })
  | release (rest : List HostEvent) (next : s.events = .releaseRst :: rest) :
      Stepped s { s with events := rest, cmdReady := true }
  | read (p : ReadPort) (rest : List HostEvent) (next : s.events = .read p :: rest) :
      Stepped s (afterRead p { s with events := rest })
  | idle (rest : List HostEvent) (next : s.events = .idle :: rest) : Stepped s { s with events := rest }
  | withdraw (cw : CmdWord) (ws : List CmdWord) (rest : List HostEvent) (next : s.events = .withdraw cw ws :: rest) :
      Stepped s { s with events := rest }
  | notReady (cw : CmdWord) (ws : List CmdWord) (rest : List HostEvent) (next : s.events = .offer cw ws :: rest)
      (reset : s.cmdReady = false) : Stepped s { s with events := rest }
  | accepted (cw : CmdWord) (ws : List CmdWord) (rest : List HostEvent) (next : s.events = .offer cw ws :: rest)
      (ready : s.cmdReady = true) (cw' : CmdWord) (among : cw' ∈ cw :: ws) (n : Nat) (t : State)
      (issued : Issued cw' { s with events := rest, draws := n } t) : Stepped s t

theorem stepped_of_step {s t : State} (h : step s = .next t) : Stepped s t := by
  cases he : s.events with
  | nil => cases (step_of_no_events he).symm.trans h; exact .nothing he
  | cons e rest =>
    rw [step_of_events he] at h
    cases e with
    | assertRst => cases h; exact .reset rest he
    | releaseRst => cases h; exact .release rest he
    | read p => cases h; exact .read p rest he
    | idle => cases h; exact .idle rest he
    | withdraw cw ws => cases h; exact .withdraw cw ws rest he
    | offer cw ws =>
      cases hr : s.cmdReady with
      | false => cases (if_neg (by simp [hr])).symm.trans h; exact .notReady cw ws rest he hr
      | true =>
        exact .accepted cw ws rest he hr _ (acceptedWord_mem cw ws s.draws) _ t
          (issued_of_issue ((if_pos hr).symm.trans h))

/-! ### Runs -/

theorem runEvents_nil (s : State) : runEvents [] s = .next { s with events := [] } := rfl

/-- A run whose first step answers a next state goes on from there. -/
theorem run_succ (M : Host.Core) {n : Nat} {s t : M.State} (h : M.step s = .next t) : M.run (n + 1) s = M.run n t := by
  simp only [Host.Core.run, h]

/-- A run of one event and then others. -/
theorem runEvents_cons {e : HostEvent} {es : List HostEvent} {s t : State}
    (h : onEvent e { s with events := es } = .next t) (ht : t.events = es) :
    runEvents (e :: es) s = runEvents es t := by
  have hs : step { s with events := e :: es } = .next t := h
  subst ht
  exact run_succ Sys2Proof.core hs

/-- A run of an offer held stable, to a block that is ready. -/
theorem runEvents_offer {i : Instr} {cw : CmdWord} {es : List HostEvent} {s t : State} (hr : s.cmdReady = true)
    (hd : decode cw = .command i) (h : exec i { s with events := es } = .next t) (ht : t.events = es) :
    runEvents (.offer cw [] :: es) s = runEvents es t := by
  refine runEvents_cons ((onEvent_stable_offer cw { s with events := es } hr).trans ?_) ht
  rw [issue, hd]
  exact h

end Sys2Proof.Machine
end

