-- ==== Sys2Proof/Laws/Inv.lean ====
section
/-! SUPPORT. What the invariant rests on, and what a command keeps of the model's own fields. -/

namespace Sys2Proof.Machine

theorem frameCapOk_iff (n : Nat) : Config.frameCapOk n = true ↔ 4 ≤ n ∧ n ≤ 65535 := by
  rw [Config.frameCapOk, Bool.and_eq_true, decide_eq_true_iff, decide_eq_true_iff]
  rfl

/-- The bounds a good state has in every encoder state. -/
theorem State.Inv.bounds {s : State} (h : s.Inv) : s.flen ≤ s.frameCap ∧ 4 ≤ s.frameCap ∧ s.frameCap ≤ 65535 := by
  obtain ⟨h4, h6⟩ := (frameCapOk_iff _).mp h.cap_ok
  refine ⟨?_, h4, h6⟩
  cases he : s.estate with
  | idle => have := h.rule36.idle_len he; omega
  | build => have := h.rule36.build_len he; omega
  | done => exact (h.rule36.done_len he).2.1

/-- The invariant reads the frame side and the error record only. -/
theorem State.Inv.congr {s t : State} (h : s.Inv) (hcap : t.frameCap = s.frameCap) (hbuf : t.fbuf = s.fbuf)
    (hlen : t.flen = s.flen) (hst : t.estate = s.estate) (herr : t.err = s.err) (hres : t.resets = s.resets) :
    t.Inv := by
  have hf : frameBytes t = frameBytes s := frameBytes_congr hlen fun i _ => by simp [memRead, hbuf, hres]
  exact
    { rule36 :=
        { idle_len := by rw [hst, hlen]; exact h.rule36.idle_len
          build_len := by rw [hst, hlen, hcap]; exact h.rule36.build_len
          done_len := by rw [hst, hlen, hcap, hf]; exact h.rule36.done_len
          cause_iff := by rw [herr]; exact h.rule36.cause_iff }
      cap_ok := by rw [hcap]; exact h.cap_ok
      fbuf_wf := by rw [hbuf]; exact h.fbuf_wf
      fbuf_inside := by rw [hbuf, hcap]; exact h.fbuf_inside
      written := by rw [hbuf, hlen]; exact h.written
      trailer := by rw [hst, hf]; exact h.trailer
      cause_sticky := by rw [herr]; exact h.cause_sticky
      eop_clear := by rw [herr]; exact h.eop_clear }

/-- A command touches neither the capacity, nor `cmd_ready`, nor the model's own fields. -/
theorem Effect.keeps {i : Instr} {s t : State} (h : Effect i s t) :
    t.frameCap = s.frameCap ∧ t.cmdReady = s.cmdReady ∧ t.events = s.events ∧ t.draws = s.draws ∧
      t.resets = s.resets := by
  cases h <;> exact ⟨rfl, rfl, rfl, rfl, rfl⟩

/-- Only CRC_INIT and CRC_BYTE write `crc`. -/
theorem Effect.crc_eq {i : Instr} {s t : State} (h : Effect i s t) (hinit : i ≠ .crcInit)
    (hbyte : ∀ b, i ≠ .crcByte b) : t.crc = s.crc := by
  cases h with
  | crcInit => exact absurd rfl hinit
  | crcByte b => exact absurd rfl (hbyte b)
  | _ => rfl

end Sys2Proof.Machine
end

