-- ==== Sys2Proof/Laws/PerInstr.lean ====
section
/-! SUPPORT. One lemma per command for the statements made for all commands. -/

namespace Sys2Proof.Laws.EncodeLegal

/-- The encoder writes a word that R58 calls legal. -/
def Statement (i : Instr) : Prop := legal (encode i) = true

theorem crcInit : Statement .crcInit := legal_wordOf _ _
theorem crcByte (b : Byte) : Statement (.crcByte b) := (legal_wordOf _ _).trans (clearB_zeros b)
theorem crcCmp (h : Half) : Statement (.crcCmp h) := (legal_wordOf _ _).trans (clearH_zeros h)
theorem encNew (adr fc : Byte) : Statement (.encNew adr fc) := (legal_wordOf _ _).trans (clearH_address adr fc)
theorem encU16 (h : Half) : Statement (.encU16 h) := (legal_wordOf _ _).trans (clearH_zeros h)
theorem encI32 (w : Arg) : Statement (.encI32 w) := legal_wordOf _ _
theorem encFinal : Statement .encFinal := legal_wordOf _ _
theorem encU8 (b : Byte) : Statement (.encU8 b) := (legal_wordOf _ _).trans (clearB_zeros b)

end Sys2Proof.Laws.EncodeLegal
end

