-- ==== Sys2Proof/Machine/AsmText.lean ====
section
/-! DEFINITION. The text of an assembler line (spec/30_encoding.md R63, R64): how it is read into an `AsmLine`.
Reading the text decides nothing about widths: `AsmLine.wellFormed` does (log entry 13). -/

namespace Sys2Proof.Machine

/-- The pieces of a text between the occurrences of a character. -/
def splitAtChar (c : Char) : List Char → List (List Char)
  | [] => [[]]
  | x :: xs =>
    if x = c then [] :: splitAtChar c xs
    else
      match splitAtChar c xs with
      | [] => [[x]]
      | w :: ws => (x :: w) :: ws

/-- A text without the blanks around it. -/
def trimBlanks (l : List Char) : List Char :=
  ((l.dropWhile (· == ' ')).reverse.dropWhile (· == ' ')).reverse

/-- The value of a digit, if it is below the base. -/
def digitValue (base : Nat) (c : Char) : Option Nat :=
  let n := c.toNat
  let v :=
    if 48 ≤ n ∧ n ≤ 57 then n - 48
    else if 65 ≤ n ∧ n ≤ 70 then n - 55
    else if 97 ≤ n ∧ n ≤ 102 then n - 87
    else 16
  if v < base then some v else none

/-- The number that digits spell, most significant first. -/
def readDigits (base : Nat) : Nat → List Char → Option Nat
  | acc, [] => some acc
  | acc, c :: cs =>
    match digitValue base c with
    | some v => readDigits base (base * acc + v) cs
    | none => none

/-- An operand: hex (`0x..`, where a word may carry the `_` of R65) or decimal (R63). -/
def readNumber : List Char → Option Nat
  | [] => none
  | '0' :: 'x' :: ds =>
    match ds.filter (· != '_') with
    | [] => none
    | hs => readDigits 16 0 hs
  | ds => readDigits 10 0 ds

/-- The operand of `enc.i32`, which may be a negative decimal (R63). -/
def readSigned : List Char → Option Int
  | [] => none
  | ['-'] => none
  | '-' :: ds => (readDigits 10 0 ds).map (fun n => -(n : Int))
  | ds => (readNumber ds).map (fun n => (n : Int))

/-- The operands of a line: separated by commas, blanks around them dropped; a line may have none. -/
def operandTexts (l : List Char) : List (List Char) :=
  match trimBlanks l with
  | [] => []
  | t => (splitAtChar ',' t).map trimBlanks

/-- All of a list of operands, if each one reads. -/
def readNumbers : List (List Char) → Option (List Nat)
  | [] => some []
  | t :: ts =>
    match readNumber t, readNumbers ts with
    | some n, some ns => some (n :: ns)
    | _, _ => none

/-- The port of `read <port>` (R63). -/
def readPortText (t : List Char) : Option AsmLine :=
  if t = "crc".toList then some .readCrc
  else if t = "status".toList then some .readStatus
  else if t = "len".toList then some .readLen
  else if t = "eop".toList then some .readEop
  else
    match splitAtChar '[' t with
    | [name, index] =>
      match splitAtChar ']' index with
      | [n, []] => if name = "frame".toList then (readNumber n).map .readFrame else none
      | _ => none
    | _ => none

/-- A command from its name and its operands' texts (R63, R64). -/
def readCommand (name : List Char) (args : List (List Char)) : Option AsmLine :=
  if name = "enc.i32".toList then
    match args with
    | [w] => (readSigned w).map .encI32
    | _ => none
  else if name = "read".toList then
    match args with
    | [p] => readPortText p
    | _ => none
  else
    match readNumbers args with
    | none => none
    | some [] =>
      if name = "crc.init".toList then some .crcInit
      else if name = "enc.final".toList then some .encFinal
      else none
    | some (a :: more) =>
      if name = "crc.block".toList then some (.crcBlock (a :: more))
      else
        match more with
        | [] =>
          if name = "crc.byte".toList then some (.crcByte a)
          else if name = "crc.cmp".toList then some (.crcCmp a)
          else if name = "enc.u16".toList then some (.encU16 a)
          else if name = "enc.u8".toList then some (.encU8 a)
          else if name = ".cmd".toList then some (.cmd a)
          else none
        | [b] =>
          if name = "enc.new".toList then some (.encNew a b)
          else if name = "crc.check".toList then some (.crcCheck a b)
          else none
        | _ => none

/-- One line: a command, a read, or a comment; what follows a `;` is a comment (R63). -/
def readLine (l : List Char) : Option AsmLine :=
  let code := trimBlanks (l.takeWhile (· != ';'))
  match code with
  | [] => some (.comment (String.ofList (l.dropWhile (· != ';'))))
  | _ => readCommand (code.takeWhile (· != ' ')) (operandTexts (code.dropWhile (· != ' ')))

/-- A line's events, or none where the text is no line or an operand does not fit. -/
def assembleText (l : List Char) : Option (List HostEvent) :=
  match readLine l with
  | some line => assembleLine line
  | none => none

end Sys2Proof.Machine
end

