-- ==== Sys2Proof/Tests/Slice0.lean ====
section
/-! SUPPORT. Tests: words written out from the spec's encodings, ill-formed terms each check refuses, one step of each
command with the results of spec/95_test_vectors.md, and for every statement with hypotheses a state that meets them. -/

namespace Sys2Proof.Tests

open Sys2Proof Sys2Proof.Machine

/-! ### Helpers -/

/-- The next state of an outcome, if it is one. -/
def nextOf : Host.Outcome State Fault Refusal → Option State
  | .next t => some t
  | .fault _ => none
  | .refused _ => none

/-- The cells of bytes from index `i` up. -/
def cells : Nat → List Byte → Memory
  | _, [] => []
  | i, b :: bs => (i, b) :: cells (i + 1) bs

/-- A block of capacity `cap` with these bytes in its frame. -/
def holding (cap : Nat) (e : EncState) (bytes : List Byte) : State :=
  { State.resetOf cap with fbuf := cells 0 bytes, flen := bytes.length, estate := e }

/-- The same block with this CRC register and match flag. -/
def withCrc (c : Half) (m : Bool) : State := { State.reset with crc := c, crcMatch := m }

/-- The reset block, to which the host offers this word. -/
def offering (cw : CmdWord) : State := { State.reset with events := [.offer cw []] }

/-- What the ports show of an outcome: frame, LEN, STATUS, EOP. -/
def shown (o : Host.Outcome State Fault Refusal) : Option (List Byte × Half × Half × Byte) :=
  (nextOf o).map (fun t => (frameBytes t, lenOut t, statusOut t, eopOut t))

/-! ### Decoding: the words of spec/opcode_table.json, bit by bit -/

theorem test_decode_CRC_INIT :
    decode 0b0000000100000000000000000000000000000000#40 = .command .crcInit := by decide
theorem test_decode_CRC_BYTE :
    decode 0b0000001000000000000000000000000010100101#40 = .command (.crcByte 0xA5#8) := by decide
theorem test_decode_CRC_CMP :
    decode 0b0000001100000000000000001000001111000001#40 = .command (.crcCmp 0x83C1#16) := by decide
theorem test_decode_ENC_NEW :
    decode 0b0001000000000000000000001000000101000010#40 = .command (.encNew 0x81#8 0x42#8) := by decide
theorem test_decode_ENC_U16 :
    decode 0b0001000100000000000000001000001111000001#40 = .command (.encU16 0x83C1#16) := by decide
theorem test_decode_ENC_I32 :
    decode 0b0001001010000000000000010000000000000010#40 = .command (.encI32 0x80010002#32) := by decide
theorem test_decode_ENC_FINAL :
    decode 0b0001001100000000000000000000000000000000#40 = .command .encFinal := by decide
theorem test_decode_ENC_U8 :
    decode 0b0001010000000000000000000000000010100101#40 = .command (.encU8 0xA5#8) := by decide

theorem test_decodeTableWord : decodeTableWord 40 0x1000000103 = some (.encNew 0x01#8 0x03#8) := by decide
theorem test_decodeTableWord_reserved : decodeTableWord 40 0x0500000000 = none := by decide

/-! ### Ill-formed terms, one for each check -/

theorem test_illegal_all_zero : legal 0x0000000000#40 = false := by decide
theorem test_illegal_all_ones : legal 0xFF00000000#40 = false := by decide
theorem test_illegal_CRC_INIT : legal 0x0100000001#40 = false := by decide
theorem test_illegal_CRC_BYTE : legal 0x0200000100#40 = false := by decide
theorem test_illegal_CRC_CMP : legal 0x0300010000#40 = false := by decide
theorem test_illegal_ENC_NEW : legal 0x1000010000#40 = false := by decide
theorem test_illegal_ENC_U16 : legal 0x1100010000#40 = false := by decide
theorem test_legal_ENC_I32 : legal 0x12FFFFFFFF#40 = true := by decide
theorem test_illegal_ENC_FINAL : legal 0x1300000001#40 = false := by decide
theorem test_illegal_ENC_U8 : legal 0x1400000100#40 = false := by decide

theorem test_frameCap_low : Config.frameCapOk 3 = false := by decide
theorem test_frameCap_high : Config.frameCapOk 65536 = false := by decide

theorem test_asm_crcByte : (AsmLine.crcByte 256).wellFormed = false := by decide
theorem test_asm_crcCmp : (AsmLine.crcCmp 65536).wellFormed = false := by decide
theorem test_asm_encNew : (AsmLine.encNew 256 0).wellFormed = false ∧ (AsmLine.encNew 0 256).wellFormed = false := by
  decide
theorem test_asm_encU16 : (AsmLine.encU16 65536).wellFormed = false := by decide
theorem test_asm_encI32 :
    (AsmLine.encI32 4294967296).wellFormed = false ∧ (AsmLine.encI32 (-2147483649)).wellFormed = false := by decide
theorem test_asm_encU8 : (AsmLine.encU8 256).wellFormed = false := by decide
theorem test_asm_cmd : (AsmLine.cmd 0x10000000000).wellFormed = false := by decide
theorem test_asm_crcBlock : (AsmLine.crcBlock []).wellFormed = false ∧ (AsmLine.crcBlock [1, 256]).wellFormed = false := by
  decide
theorem test_asm_crcCheck : (AsmLine.crcCheck 256 0).wellFormed = false ∧ (AsmLine.crcCheck 0 256).wellFormed = false := by
  decide
theorem test_asm_readFrame : (AsmLine.readFrame 65536).wellFormed = false := by decide

/-! ### The assembler's text (the listings of spec/95_test_vectors.md, P1, P4, P5) -/

theorem test_text_encNew :
    assembleText "enc.new 0x01, 0x03           ; 0x10_00000103".toList = some [.offer 0x1000000103#40 []] := by decide
theorem test_text_encI32 : assembleText "enc.i32 -2".toList = some [.offer 0x12FFFFFFFE#40 []] := by decide
theorem test_text_cmd : assembleText ".cmd 0x1300000001".toList = some [.offer 0x1300000001#40 []] := by decide
theorem test_text_read : assembleText "read frame[7]".toList = some [.read (.frame 7#16)] := by decide
theorem test_text_misfit : assembleText "crc.byte 256".toList = none := by decide
theorem test_spell : String.ofList (spellWord 0x1000000103#40) = "0x10_00000103" := by decide

/-! ### One step of each command -/

/-- V-CMD-1, V-CMD-11. -/
theorem test_crcInit : (nextOf (exec .crcInit (withCrc 0x0BC4#16 true))).map (fun t => (t.crc, t.crcMatch)) =
    some (0xFFFF#16, true) := by decide

/-- V-CMD-3. -/
theorem test_crcByte : (nextOf (exec (.crcByte 0x01#8) State.reset)).map State.crc = some 0x807E#16 := by decide

/-- V-CMD-9, its first command. -/
theorem test_crcByte_keeps_match :
    (nextOf (exec (.crcByte 0xC4#8) (withCrc 0x0BC4#16 true))).map (fun t => (t.crc, t.crcMatch)) =
      some (0x000B#16, true) := by decide

/-- V-CMD-7. -/
theorem test_crcCmp_match : (nextOf (exec (.crcCmp 0x0BC4#16) (withCrc 0x0BC4#16 false))).map State.crcMatch =
    some true := by decide

/-- V-CMD-8: the bytes taken in the wrong order; no error is raised. -/
theorem test_crcCmp_mismatch :
    (nextOf (exec (.crcCmp 0xC40B#16) (withCrc 0x0BC4#16 true))).map (fun t => (t.crcMatch, statusOut t)) =
      some (false, 0x0000#16) := by decide

/-- V-ENC-1. -/
theorem test_encNew : shown (exec (.encNew 0x01#8 0x03#8) State.reset) =
    some ([0x01#8, 0x03#8], 2#16, 0x0001#16, 0x00#8) := by decide

/-- V-ENC-21: from DONE. -/
theorem test_encNew_restarts :
    shown (exec (.encNew 0x05#8 0x06#8) (holding 256 .done [0x01#8, 0x03#8, 0x40#8, 0x21#8])) =
      some ([0x05#8, 0x06#8], 2#16, 0x0001#16, 0x00#8) := by decide

/-- V-ENC-4. -/
theorem test_encU16 : shown (exec (.encU16 0x0102#16) (holding 256 .build [0x01#8, 0x03#8])) =
    some ([0x01#8, 0x03#8, 0x01#8, 0x02#8], 4#16, 0x0001#16, 0x00#8) := by decide

/-- V-ERR-19: FRAME_CAP = 7 has no room for the second field. -/
theorem test_encU16_ovf : shown (exec (.encU16 0x0304#16) (holding 7 .build [0x01#8, 0x03#8, 0x01#8, 0x02#8])) =
    some ([0x01#8, 0x03#8, 0x01#8, 0x02#8], 4#16, 0x0341#16, 0x11#8) := by decide

/-- V-ENC-7. -/
theorem test_encI32 : shown (exec (.encI32 0x12345678#32) (holding 256 .build [0x01#8, 0x10#8])) =
    some ([0x01#8, 0x10#8, 0x12#8, 0x34#8, 0x56#8, 0x78#8], 6#16, 0x0001#16, 0x00#8) := by decide

/-- V-ERR-21: FRAME_CAP = 8, the payload space is filled exactly. -/
theorem test_encI32_exact : shown (exec (.encI32 0x03040506#32) (holding 8 .build [0x01#8, 0x03#8])) =
    some ([0x01#8, 0x03#8, 0x03#8, 0x04#8, 0x05#8, 0x06#8], 6#16, 0x0001#16, 0x00#8) := by decide

/-- V-ENC-12, its last command. -/
theorem test_encU8 : shown (exec (.encU8 0x02#8) (holding 256 .build [0x01#8, 0x0F#8, 0x00#8, 0x13#8, 0x00#8, 0x0A#8])) =
    some ([0x01#8, 0x0F#8, 0x00#8, 0x13#8, 0x00#8, 0x0A#8, 0x02#8], 7#16, 0x0001#16, 0x00#8) := by decide

/-- V-ERR-16: FRAME_CAP = 4 has no payload space. -/
theorem test_encU8_ovf : shown (exec (.encU8 0x00#8) (holding 4 .build [0x01#8, 0x03#8])) =
    some ([0x01#8, 0x03#8], 2#16, 0x0341#16, 0x14#8) := by decide

set_option maxRecDepth 20000 in
/-- V-FRM-1, program P1's last command. -/
theorem test_encFinal : shown (exec .encFinal (holding 256 .build [0x01#8, 0x03#8, 0x00#8, 0x00#8, 0x00#8, 0x02#8])) =
    some ([0x01#8, 0x03#8, 0x00#8, 0x00#8, 0x00#8, 0x02#8, 0xC4#8, 0x0B#8], 8#16, 0x0002#16, 0x00#8) := by decide

/-- V-ERR-15: a second finalize. -/
theorem test_encFinal_twice : shown (exec .encFinal (holding 256 .done [0x01#8, 0x03#8, 0x40#8, 0x21#8])) =
    some ([0x01#8, 0x03#8, 0x40#8, 0x21#8], 4#16, 0x0222#16, 0x13#8) := by decide

/-! ### One step at the ports -/

/-- V-ERR-1. -/
theorem test_step_all_zero_word : shown (step (State.reset.withFetchWord 40 0)) =
    some ([], 0#16, 0x0110#16, 0x00#8) := by decide

/-- V-ERR-7: ILL wins over SEQ. -/
theorem test_step_ill_before_seq : shown (step (State.reset.withFetchWord 40 0x1100010000)) =
    some ([], 0#16, 0x0110#16, 0x11#8) := by decide

/-- V-ERR-22: the second error sets its bit and leaves the record of the first. -/
theorem test_step_second_error :
    shown (step ((raiseError .seq 0x14#8 State.reset).withFetchWord 40 0x0500000000)) =
      some ([], 0#16, 0x0230#16, 0x14#8) := by decide

/-- V-RST-2: `rst` at a clock edge. -/
theorem test_step_rst :
    (nextOf (step { withCrc 0x0000#16 true with events := [.assertRst] })).map
      (fun t => (t.crc, statusOut t, t.cmdReady)) = some (0xFFFF#16, 0x0000#16, false) := by decide

/-- V-RST-3: a command offered while `rst` is 1. -/
theorem test_step_offer_in_reset :
    (nextOf (step { offering 0x0200000001#40 with cmdReady := false })).map State.crc = some 0xFFFF#16 := by decide

/-- V-RD-6. -/
theorem test_read_frame :
    hostReads { holding 256 .done [0x01#8, 0x03#8, 0x00#8, 0x00#8, 0x00#8, 0x02#8, 0xC4#8, 0x0B#8] with
      events := [.read (.frame 6#16)] } = some (.byte 0xC4#8) := by decide

/-! ### States that meet the hypotheses of the statements -/

/-- A finished frame: V-ENC-14. -/
def doneState : State := holding 256 .done [0x01#8, 0x03#8, 0x40#8, 0x21#8]

/-- A frame being built at the least capacity. -/
def fullState : State := holding 4 .build [0x01#8, 0x03#8]

set_option maxRecDepth 20000 in
theorem doneState_inv : doneState.Inv where
  rule36 :=
    { idle_len := by decide
      build_len := by decide
      done_len := by decide
      cause_iff := by decide }
  cap_ok := by decide
  fbuf_wf := by decide
  fbuf_inside := by decide
  written := by decide
  trailer := fun _ => ⟨[0x01#8, 0x03#8], by decide, by decide⟩
  cause_sticky := by decide
  eop_clear := by decide

theorem fullState_inv : fullState.Inv where
  rule36 :=
    { idle_len := by decide
      build_len := by decide
      done_len := by decide
      cause_iff := by decide }
  cap_ok := by decide
  fbuf_wf := by decide
  fbuf_inside := by decide
  written := by decide
  trailer := fun h => by cases h
  cause_sticky := by decide
  eop_clear := by decide

theorem offering_accepts (cw : CmdWord) : Accepts (offering cw) cw [] := ⟨rfl, rfl⟩

theorem witness_StepPerformsTheAcceptedWord :
    (Accepts (offering 0x0100000000#40) 0x0100000000#40 [] ∧ decode 0x0100000000#40 = .command .crcInit) ∧
      Accepts (offering 0x0000000000#40) 0x0000000000#40 [] ∧
      decode 0x0000000000#40 = .illegal .reservedOpcode :=
  ⟨⟨offering_accepts _, by decide⟩, offering_accepts _, by decide⟩

theorem witness_DecodeAcceptsExactlyLegalWords :
    (Accepts (offering 0x12FFFFFFFF#40) 0x12FFFFFFFF#40 [] ∧ legal 0x12FFFFFFFF#40 = true) ∧
      Accepts (offering 0x1500000000#40) 0x1500000000#40 [] ∧ legal 0x1500000000#40 = false :=
  ⟨⟨offering_accepts _, by decide⟩, offering_accepts _, by decide⟩

theorem witness_DecodeEncodeRoundTrip : decode 0x14000000FF#40 = .command (.encU8 0xFF#8) := by decide

theorem witness_ReservedOpcodeRaisesIll :
    Accepts (offering 0x0400000000#40) 0x0400000000#40 [] ∧
      opOf 0x0400000000#40 ∉ [0x01#8, 0x02#8, 0x03#8, 0x10#8, 0x11#8, 0x12#8, 0x13#8, 0x14#8] :=
  ⟨offering_accepts _, by decide⟩

theorem witness_ReservedBitsRaiseIll :
    Accepts (offering 0x0200000100#40) 0x0200000100#40 [] ∧ (opOf 0x0200000100#40, Form.B) ∈ opcodeForms ∧
      argOf 0x0200000100#40 &&& Form.B.reserved ≠ 0#32 :=
  ⟨offering_accepts _, by decide, by decide⟩

theorem witness_EmptySequenceCrc : ({ State.reset with events := [.assertRst] } : State).events = .assertRst :: [] :=
  rfl

theorem witness_CrcInitSetsTheRegister :
    Accepts (offering (wordOf 0x01#8 1#32)) (wordOf 0x01#8 1#32) [] ∧ (1#32 : Arg) ≠ 0#32 ∧
      (nextOf (exec .crcInit State.reset)).isSome = true :=
  ⟨offering_accepts _, by decide, by decide⟩

theorem witness_CrcByteFeedsOneByte :
    Accepts (offering (wordOf 0x02#8 0x100#32)) (wordOf 0x02#8 0x100#32) [] ∧
      (0x100#32 : Arg).extractLsb' 8 24 ≠ 0#24 :=
  ⟨offering_accepts _, by decide⟩

theorem witness_CrcCmpSetsTheMatchFlag :
    Accepts (offering (wordOf 0x03#8 0x10000#32)) (wordOf 0x03#8 0x10000#32) [] ∧
      (0x10000#32 : Arg).extractLsb' 16 16 ≠ 0#16 ∧ (nextOf (exec .crcInit State.reset)).isSome = true :=
  ⟨offering_accepts _, by decide, by decide⟩

theorem witness_CrcMismatchIsNoError : State.reset.crc ≠ 0x0000#16 := by decide

theorem witness_CrcOverSubRange :
    doneState.Inv ∧ doneState.cmdReady = true ∧
      ∀ e ∈ [offerOf (.crcByte 0x01#8), .read .crc, offerOf .encFinal, offerOf (.crcByte 0x03#8)],
        steady e = true ∧ offersCrcInit e = false :=
  ⟨doneState_inv, rfl, by decide⟩

theorem witness_CrcAndEncoderAreIndependent : isCrcCommand .crcInit = true ∧ isCrcCommand .encFinal = false := by decide

theorem witness_EncNewStartsAFrame :
    (Config.frameCapOk fullState.frameCap = true ∧ 2 ≤ (2#16 : Half).toNat) ∧
      Accepts (offering (wordOf 0x10#8 0x10000#32)) (wordOf 0x10#8 0x10000#32) [] ∧
      (0x10000#32 : Arg).extractLsb' 16 16 ≠ 0#16 :=
  ⟨by decide, offering_accepts _, by decide⟩

theorem witness_EncU16AppendsBigEndian :
    doneState.estate ≠ .build ∧ (fullState.estate = .build ∧ fullState.flen + 2 > fullState.frameCap - 2) ∧
      ((holding 6 .build [1#8, 3#8]).estate = .build ∧
        (holding 6 .build [1#8, 3#8]).flen + 2 ≤ (holding 6 .build [1#8, 3#8]).frameCap - 2) ∧
      Accepts (offering (wordOf 0x11#8 0x10000#32)) (wordOf 0x11#8 0x10000#32) [] ∧
      (0x10000#32 : Arg).extractLsb' 16 16 ≠ 0#16 :=
  ⟨by decide, by decide, by decide, offering_accepts _, by decide⟩

theorem witness_EncI32AppendsBigEndian :
    doneState.estate ≠ .build ∧
      ((holding 7 .build [1#8, 3#8]).estate = .build ∧
        (holding 7 .build [1#8, 3#8]).flen + 4 > (holding 7 .build [1#8, 3#8]).frameCap - 2) ∧
      (holding 8 .build [1#8, 3#8]).estate = .build ∧
      (holding 8 .build [1#8, 3#8]).flen + 4 ≤ (holding 8 .build [1#8, 3#8]).frameCap - 2 := by decide

theorem witness_EncU8AppendsOneByte :
    State.reset.estate ≠ .build ∧ (fullState.estate = .build ∧ fullState.flen + 1 > fullState.frameCap - 2) ∧
      ((holding 5 .build [1#8, 3#8]).estate = .build ∧
        (holding 5 .build [1#8, 3#8]).flen + 1 ≤ (holding 5 .build [1#8, 3#8]).frameCap - 2) ∧
      Accepts (offering (wordOf 0x14#8 0x100#32)) (wordOf 0x14#8 0x100#32) [] ∧
      (0x100#32 : Arg).extractLsb' 8 24 ≠ 0#24 :=
  ⟨by decide, by decide, by decide, offering_accepts _, by decide⟩

theorem witness_EncFinalAppendsTheCrc :
    State.reset.estate ≠ .build ∧ doneState.estate ≠ .build ∧
      (fullState.estate = .build ∧ fullState.flen + 2 ≤ fullState.frameCap) ∧
      Accepts (offering (wordOf 0x13#8 1#32)) (wordOf 0x13#8 1#32) [] ∧ (1#32 : Arg) ≠ 0#32 :=
  ⟨by decide, by decide, by decide, offering_accepts _, by decide⟩

theorem witness_CapacityDecidesTheAppend :
    appendBytes (.encU8 0#8) = some [0#8] ∧ fullState.estate = .build ∧
      ¬ fullState.flen + [0#8].length ≤ fullState.frameCap - 2 := by decide

theorem witness_EncoderValidatesNothing :
    Config.frameCapOk fullState.frameCap = true ∧ appendBytes (.encU16 0xFFFF#16) = some (be16 0xFFFF#16) ∧
      (holding 6 .build [1#8, 3#8]).estate = .build ∧
      (holding 6 .build [1#8, 3#8]).flen + (be16 0xFFFF#16).length ≤ (holding 6 .build [1#8, 3#8]).frameCap - 2 := by
  decide

theorem witness_LengthBoundsHoldAndAreReached :
    (fullState.Inv ∧ fullState.estate = .build) ∧ (doneState.Inv ∧ doneState.estate = .done) ∧
      (nextOf (step fullState)).isSome = true ∧ Config.frameCapOk 4 = true ∧ Config.frameCapOk 65535 = true :=
  ⟨⟨fullState_inv, rfl⟩, ⟨doneState_inv, rfl⟩, by decide, by decide, by decide⟩

theorem witness_EncoderStateTransitions :
    (nextOf (exec .encFinal fullState)).isSome = true ∧ (needsBuild .encFinal = true ∧ doneState.estate ≠ .build) ∧
      Accepts (offering 0x0000000000#40) 0x0000000000#40 [] ∧ legal 0x0000000000#40 = false ∧
      (nextOf (step (offering 0x0000000000#40))).isSome = true :=
  ⟨by decide, by decide, offering_accepts _, by decide, by decide⟩

theorem witness_EncoderBuildsTheSourceFrame :
    Config.frameCapOk (State.resetOf 11).frameCap = true ∧ (State.resetOf 11).cmdReady = true ∧
      (sourceFrame 1#8 0x10#8 [.u16 0x0102#16, .i32 0xFFFFFFFE#32, .u8 0x05#8]).length ≤ (State.resetOf 11).frameCap := by
  decide

theorem witness_DoneFrameVerifies : doneState.Inv ∧ doneState.estate = .done ∧ doneState.cmdReady = true :=
  ⟨doneState_inv, rfl, rfl⟩

theorem witness_DoneFrameStays :
    ({ doneState with events := [offerOf .encFinal] } : State).estate = .done ∧
      HostEvent.offer (encode .encFinal) [] ≠ .assertRst ∧ decode (encode .encFinal) = .command .encFinal ∧
      isEncNew .encFinal = false ∧
      (nextOf (step { doneState with events := [offerOf .encFinal] })).isSome = true := by decide

/-- The buffer differs at index 2 only, above `flen = 2`. -/
theorem witness_StaleBytesAreNotRead :
    ∀ a < fullState.flen,
      memRead { fullState with fbuf := cells 0 [0x01#8, 0x03#8, 0x77#8] } a = memRead fullState a := by decide

theorem witness_OnlyNamedCommandsWriteEachElement :
    (nextOf (exec (.crcByte 1#8) State.reset)).map (fun t => decide (t.crc ≠ State.reset.crc)) = some true ∧
      (nextOf (exec (.crcCmp 0xFFFF#16) State.reset)).map (fun t => decide (t.crcMatch ≠ State.reset.crcMatch)) =
        some true ∧
      (nextOf (exec (.encU8 7#8) (holding 256 .build [1#8, 3#8]))).map (fun t => decide (t.flen ≠ 2)) = some true ∧
      (nextOf (exec (.encNew 9#8 9#8) doneState)).map (fun t => decide (memRead t 1 ≠ memRead doneState 1)) =
        some true := by decide

theorem witness_RaisingRecordsTheError :
    State.reset.err.cause = none ∧ (raiseError .ill 0x00#8 State.reset).err.cause ≠ none ∧ ErrKind.ovf ≠ .ill := by decide

theorem witness_IllIsRaisedByIllegalWords :
    Accepts (offering 0x0000000000#40) 0x0000000000#40 [] ∧ legal 0x0000000000#40 = false ∧
      (offering 0x0000000000#40).err.cause = none ∧ (offering 0x0000000000#40).err.ill = false ∧
      (nextOf (step (offering 0x0000000000#40))).map (fun t => t.err.ill) = some true :=
  ⟨offering_accepts _, by decide, by decide, by decide, by decide⟩

theorem witness_SeqIsRaisedOutsideBuild :
    needsBuild (.encU16 0#16) = true ∧ State.reset.estate ≠ .build ∧ State.reset.err.cause = none ∧
      State.reset.err.seq = false ∧
      (nextOf (exec (.encU16 0#16) State.reset)).map (fun t => t.err.seq) = some true := by decide

theorem witness_OvfIsRaisedWithoutRoom :
    appendBytes (.encU8 0#8) = some [0#8] ∧ fullState.estate = .build ∧
      fullState.flen + [0#8].length > fullState.frameCap - 2 ∧ fullState.err.cause = none ∧
      fullState.err.ovf = false ∧ (nextOf (exec (.encU8 0#8) fullState)).map (fun t => t.err.ovf) = some true := by decide

/-- `fullState`, to which the host offers this word. -/
def fullOffering (cw : CmdWord) : State := { fullState with events := [.offer cw []] }

theorem witness_OneErrorInFixedOrder :
    (Accepts (fullOffering 0x1400000000#40) 0x1400000000#40 [] ∧
        errorOf 0x1400000000#40 (fullOffering 0x1400000000#40) = some .ovf) ∧
      (Accepts (fullOffering 0x1300000000#40) 0x1300000000#40 [] ∧
        errorOf 0x1300000000#40 (fullOffering 0x1300000000#40) = none) ∧
      (nextOf (step (fullOffering 0x1400000000#40))).isSome = true ∧
      (nextOf (step (fullOffering 0x1300000000#40))).isSome = true :=
  ⟨⟨⟨rfl, rfl⟩, by decide⟩, ⟨⟨rfl, rfl⟩, by decide⟩, by decide, by decide⟩

theorem witness_ErrorsArePrecise :
    (Accepts (offering 0x1100010000#40) 0x1100010000#40 [] ∧
        errorOf 0x1100010000#40 (offering 0x1100010000#40) = some .ill) ∧
      (Accepts (offering 0x1200000000#40) 0x1200000000#40 [] ∧
        errorOf 0x1200000000#40 (offering 0x1200000000#40) = some .seq) ∧
      Accepts (fullOffering 0x1200000000#40) 0x1200000000#40 [] ∧
      errorOf 0x1200000000#40 (fullOffering 0x1200000000#40) = some .ovf :=
  ⟨⟨offering_accepts _, by decide⟩, ⟨offering_accepts _, by decide⟩, ⟨rfl, rfl⟩, by decide⟩

/-- A block with an error on record, to which the host offers ENC_NEW. -/
def erredState : State :=
  { raiseError .seq 0x11#8 State.reset with events := [offerOf (.encNew 2#8 4#8)] }

theorem witness_OnlyResetClearsTheErrorRecord :
    erredState.events = offerOf (.encNew 2#8 4#8) :: [] ∧ offerOf (.encNew 2#8 4#8) ≠ .assertRst ∧
      (nextOf (step erredState)).isSome = true ∧ erredState.err.sticky .seq = true ∧ erredState.err.cause ≠ none ∧
      ({ erredState with events := [.assertRst] } : State).events = .assertRst :: [] := by decide

theorem witness_OnlyWritesOutsideTheBufferFault :
    (State.resetOf 1).frameCap < 2 ∧
      ((holding 3 .build [1#8, 3#8]).estate = .build ∧
        (holding 3 .build [1#8, 3#8]).frameCap < (holding 3 .build [1#8, 3#8]).flen + 2) ∧
      exec (.encNew 0#8 0#8) (State.resetOf 1) = .fault .outsideFrameBuffer :=
  ⟨by decide, by decide, rfl⟩

theorem witness_LenEopCrcPorts : doneState.Inv := doneState_inv

theorem witness_FramePortReads :
    (3#16 : Half).toNat < doneState.flen ∧ doneState.flen ≤ (4#16 : Half).toNat ∧
      doneState.flen ≤ (0xFFFF#16 : Half).toNat ∧
      ({ doneState with events := [.read (.frame 4#16)] } : State).events = .read (.frame 4#16) :: [] := by decide

theorem witness_ReadsHaveNoSideEffect :
    ({ doneState with events := [.read .status] } : State).events = .read .status :: [] ∧
      (3#16 : Half).toNat < doneState.flen ∧ doneState.flen ≤ (4#16 : Half).toNat := by decide

theorem witness_IdleLeavesTheStateUnchanged :
    State.reset.events = [] ∧ ({ State.reset with events := [.idle] } : State).events = .idle :: [] := by decide

theorem witness_OneOfferedWordIsAccepted :
    (({ State.reset with events := [.offer 1#40 [2#40, 3#40]] } : State).events = .offer 1#40 [2#40, 3#40] :: [] ∧
        State.reset.cmdReady = true) ∧
      Accepts (offering 1#40) 1#40 [] ∧
      ({ State.reset with events := [.withdraw 1#40 []] } : State).events = .withdraw 1#40 [] :: [] :=
  ⟨by decide, offering_accepts _, by decide⟩

theorem witness_ResetSetsEveryElement :
    ({ erredState with events := [.assertRst] } : State).events = .assertRst :: [] ∧
      ({ erredState with events := [.releaseRst] } : State).events = .releaseRst :: [] ∧
      erredState.err.sticky .seq = true ∧
      (nextOf (step { erredState with events := [.assertRst] })).map (fun t => t.err.sticky .seq) = some false := by decide

theorem witness_NoCommandIsAcceptedInReset :
    ({ offering 1#40 with cmdReady := false } : State).events = .offer 1#40 [] :: [] ∧
      ({ offering 1#40 with cmdReady := false } : State).cmdReady = false := by decide

theorem witness_InvariantHoldsAtReset : Config.frameCapOk 4 = true ∧ Config.frameCapOk 65535 = true := by decide

theorem witness_StepKeepsTheInvariant :
    (fullState.Inv ∧ (nextOf (step (fullOffering (encode .encFinal)))).isSome = true) ∧
      Config.frameCapOk erredState.frameCap = true ∧
      ({ erredState with events := [.assertRst] } : State).events = .assertRst :: [] :=
  ⟨⟨fullState_inv, by decide⟩, by decide, rfl⟩

theorem witness_GoodStatesNeverStop : doneState.Inv := doneState_inv

theorem witness_EveryEventIsTaken :
    fullState.Inv ∧ (nextOf (runEvents [.assertRst, .releaseRst] fullState)).map State.cmdReady = some true ∧
      (nextOf (runEvents ([.assertRst, .releaseRst] ++ [.offer 0x0100000000#40 []]) fullState)).isSome = true :=
  ⟨fullState_inv, by decide, by decide⟩

theorem witness_ReadsSeeEveryEarlierCommand : fullState.Inv := fullState_inv

theorem witness_AssemblerGivesTheTableWords :
    (4294967295 < 2 ^ 32 ∧ 1 ≤ 2147483648 ∧ 2147483648 ≤ 2 ^ 31) ∧ ((-2147483649 : Int) < -2 ^ 31) ∧
      (2 : Int) ^ 32 ≤ 4294967296 := by decide

end Sys2Proof.Tests
end

section
/-! SUPPORT. When a command stops the machine, said once for all commands (R7, R36, R37; log entry 8). -/

namespace Sys2Proof.Machine

/-- The command writes at an index that does not exist: ENC_NEW with no room for two bytes, or ENC_FINAL in BUILD with
no room for the CRC. -/
def WritesOutside (i : Instr) (s : State) : Prop :=
  (isEncNew i = true ∧ s.frameCap < 2) ∨ (i = .encFinal ∧ s.estate = .build ∧ s.frameCap < s.flen + 2)

theorem exec_encNew_outside (adr fc : Byte) {s : State} (h : s.frameCap < 2) :
    exec (.encNew adr fc) s = .fault .outsideFrameBuffer :=
  writeFrame_outside s 0 [adr, fc] 2 .build (by simp) h

theorem exec_encFinal_outside {s : State} (hb : s.estate = .build) (h : s.frameCap < s.flen + 2) :
    exec .encFinal s = .fault .outsideFrameBuffer := by
  rcases execEncFinal_cases s with ⟨hn, _⟩ | ⟨_, hr, _⟩ | ⟨_, _, e⟩
  · exact absurd hb hn
  · omega
  · exact e

/-- The capacity test of R80 keeps an append inside the buffer, so it never faults. -/
theorem exec_append_next {i : Instr} {bs : List Byte} (h : appendBytes i = some bs) (s : State) :
    ∃ t, exec i s = .next t := by
  rw [exec_append h]
  rcases appendPayload_cases i.opcode bs s with ⟨_, e⟩ | ⟨_, _, e⟩ | ⟨_, _, e⟩ <;> exact ⟨_, e⟩

/-- How a command can end: with a next state, or with the fault because it writes outside the buffer. -/
theorem exec_ends (i : Instr) (s : State) :
    (∃ t, exec i s = .next t) ∨ (exec i s = .fault .outsideFrameBuffer ∧ WritesOutside i s) := by
  cases i with
  | crcInit => exact .inl ⟨_, rfl⟩
  | crcByte b => exact .inl ⟨_, rfl⟩
  | crcCmp h => exact .inl ⟨_, rfl⟩
  | encNew adr fc =>
    rcases writeFrame_cases s 0 [adr, fc] 2 .build (by simp) with ⟨_, e⟩ | ⟨hr, e⟩
    · exact .inl ⟨_, e⟩
    · exact .inr ⟨e, .inl ⟨rfl, hr⟩⟩
  | encU16 h => exact .inl (exec_append_next rfl s)
  | encI32 w => exact .inl (exec_append_next rfl s)
  | encFinal =>
    rcases execEncFinal_cases s with ⟨_, e⟩ | ⟨_, _, e⟩ | ⟨hb, hr, e⟩
    · exact .inl ⟨_, e⟩
    · exact .inl ⟨_, e⟩
    · exact .inr ⟨e, .inr ⟨rfl, hb, hr⟩⟩
  | encU8 b => exact .inl (exec_append_next rfl s)

theorem writesOutside_of_fault {i : Instr} {s : State} {f : Fault} (h : exec i s = .fault f) : WritesOutside i s := by
  rcases exec_ends i s with ⟨t, e⟩ | ⟨_, hw⟩
  · cases e.symm.trans h
  · exact hw

theorem exec_ne_refused (i : Instr) (s : State) (r : Refusal) : exec i s ≠ .refused r := by
  intro h
  rcases exec_ends i s with ⟨t, e⟩ | ⟨e, _⟩ <;> cases e.symm.trans h

/-- Settles O41: the two faulting states are read off the writes, and `exec_ends` leaves no other way to stop. -/
theorem onlyWritesOutsideTheBufferFault : Obligations.OnlyWritesOutsideTheBufferFault := by
  unfold Obligations.OnlyWritesOutsideTheBufferFault
  exact ⟨fun adr fc _ h => exec_encNew_outside adr fc h, fun _ hb h => exec_encFinal_outside hb h,
    fun _ _ _ h => writesOutside_of_fault h, exec_ne_refused⟩

end Sys2Proof.Machine
end

section
/-! SUPPORT. The error record after an error is recorded (R25 to R27, R96). -/

namespace Sys2Proof.Machine

theorem record_first {r : ErrorRecord} (h : r.cause = none) (e : ErrKind) (op : Opcode) :
    r.record e op = { r.setSticky e with cause := some e, eop := op } := by rw [ErrorRecord.record, h]

theorem record_later {r : ErrorRecord} {k : ErrKind} (h : r.cause = some k) (e : ErrKind) (op : Opcode) :
    r.record e op = r.setSticky e := by rw [ErrorRecord.record, h]

@[simp] theorem setSticky_cause (r : ErrorRecord) (e : ErrKind) : (r.setSticky e).cause = r.cause := by cases e <;> rfl

theorem setSticky_sticky (r : ErrorRecord) (e k : ErrKind) :
    (r.setSticky e).sticky k = (decide (k = e) || r.sticky k) := by
  cases e <;> cases k <;> rfl

/-- An error sets its own sticky bit and no other, whether it is the first or not. -/
theorem record_sticky (r : ErrorRecord) (e k : ErrKind) (op : Opcode) :
    (r.record e op).sticky k = (decide (k = e) || r.sticky k) := by
  rw [← setSticky_sticky]
  cases hc : r.cause with
  | none => rw [record_first hc]; cases k <;> rfl
  | some _ => rw [record_later hc]

/-- `ecause` is the first error. -/
theorem record_cause (r : ErrorRecord) (e : ErrKind) (op : Opcode) :
    (r.record e op).cause = some (r.cause.getD e) := by
  cases hc : r.cause with
  | none => rw [record_first hc]; rfl
  | some _ => rw [record_later hc]; simp [hc]

theorem noSticky_iff (r : ErrorRecord) :
    (r.ill = false ∧ r.seq = false ∧ r.ovf = false) ↔ ∀ k, r.sticky k = false :=
  ⟨fun ⟨hi, hs, ho⟩ k => by cases k <;> assumption, fun h => ⟨h .ill, h .seq, h .ovf⟩⟩

end Sys2Proof.Machine
end

section
/-! SUPPORT. A sequence followed by its own CRC, low byte first, leaves the register at 0 (R74). -/

namespace Sys2Proof.Machine

/-- The low byte clears the bits that the eight iterations look at, so they are one shift. -/
theorem crcStep_low (c : Half) : crcStep c (c.extractLsb' 0 8) = c >>> 8 := by
  have hx : ∀ i, (c ^^^ (c.extractLsb' 0 8).zeroExtend 16).getLsbD i = (decide (8 ≤ i) && c.getLsbD i) := by
    intro i
    rcases Nat.lt_or_ge i 8 with h | h
    · simp [h, show i < 16 by omega]
    · simp [h]
  rw [crcStep, crcShifts_of_clear fun i hi => by rw [hx]; simp [hi]]
  refine BitVec.eq_of_getLsbD_eq fun i _ => ?_
  rw [BitVec.getLsbD_ushiftRight, BitVec.getLsbD_ushiftRight, hx]
  simp

theorem zeroExtend_high (c : Half) : (c.extractLsb' 8 8).zeroExtend 16 = c >>> 8 := by
  have hc := c.isLt
  refine BitVec.eq_of_toNat_eq ?_
  simp only [BitVec.truncate_eq_setWidth, BitVec.toNat_setWidth, BitVec.extractLsb'_toNat, BitVec.toNat_ushiftRight,
    Nat.shiftRight_eq_div_pow]
  omega

/-- The high byte then cancels what is left. -/
theorem crcStep_high (c : Half) : crcStep (c >>> 8) (c.extractLsb' 8 8) = 0x0000#16 := by
  rw [crcStep, zeroExtend_high, BitVec.xor_self]
  decide

theorem crcFrom_lowFirst (c : Half) : crcFrom c (lowFirst c) = 0x0000#16 := by
  rw [lowFirst, crcFrom_cons, crcFrom_cons, crcFrom_nil, crcStep_low, crcStep_high]

theorem crc16_append_lowFirst (bytes : List Byte) : crc16 (bytes ++ lowFirst (crc16 bytes)) = 0x0000#16 := by
  rw [crc16_append, crcFrom_lowFirst]

end Sys2Proof.Machine
end

section
/-! SUPPORT. What keeps the invariant: an error, a write of the encoder, a reset (R36); and the proof that every step
does. -/

namespace Sys2Proof.Machine

/-- The states that reset leads to: an empty buffer, IDLE and no error, at an allowed capacity. -/
theorem inv_of_reset_values {s : State} (hcap : Config.frameCapOk s.frameCap = true) (hbuf : s.fbuf = [])
    (hlen : s.flen = 0) (hst : s.estate = .idle) (herr : s.err = .clear) : s.Inv where
  rule36 :=
    { idle_len := fun _ => hlen
      build_len := fun h => by simp [hst] at h
      done_len := fun h => by simp [hst] at h
      cause_iff := by rw [herr]; decide }
  cap_ok := hcap
  fbuf_wf := by rw [hbuf]; exact .nil
  fbuf_inside := by simp [hbuf]
  written := by simp [hlen]
  trailer := fun h => by simp [hst] at h
  cause_sticky := fun e h => by simp [herr, ErrorRecord.clear] at h
  eop_clear := fun _ => by rw [herr]; rfl

theorem resetOf_inv {cap : Nat} (h : Config.frameCapOk cap = true) : (State.resetOf cap).Inv :=
  inv_of_reset_values h rfl rfl rfl rfl

theorem applyReset_inv {s : State} (h : Config.frameCapOk s.frameCap = true) : (applyReset s).Inv :=
  inv_of_reset_values h rfl rfl rfl rfl

/-- Raising an error keeps the invariant: a cause is on record afterwards, and its sticky bit is set. -/
theorem State.Inv.raiseError {s : State} (h : s.Inv) (e : ErrKind) (op : Opcode) : (raiseError e op s).Inv := by
  have hcause : (s.err.record e op).cause ≠ none := by simp [record_cause]
  have hsticky : (s.err.record e op).sticky e = true := by simp [record_sticky]
  exact
    { rule36 :=
        { idle_len := h.rule36.idle_len
          build_len := h.rule36.build_len
          done_len := h.rule36.done_len
          cause_iff := by
            rw [raiseError_err, noSticky_iff]
            exact ⟨fun hn => absurd hn hcause, fun hall => by simp [hall e] at hsticky⟩ }
      cap_ok := h.cap_ok
      fbuf_wf := h.fbuf_wf
      fbuf_inside := h.fbuf_inside
      written := h.written
      trailer := h.trailer
      cause_sticky := fun k hk => by
        rw [raiseError_err, record_cause, Option.some.injEq] at hk
        rw [raiseError_err]
        cases hc : s.err.cause with
        | none =>
          obtain rfl : e = k := by simpa [hc] using hk
          exact hsticky
        | some c =>
          obtain rfl : c = k := by simpa [hc] using hk
          simp [record_sticky, h.cause_sticky c hc]
      eop_clear := fun hn => absurd hn hcause }

/-- Bytes written from inside the frame or just above it leave no gap in what is written. -/
theorem read?_putAll_isSome {m : Memory} {n i : Nat} (hm : ∀ a < n, (Memory.read? m a).isSome = true) (hi : i ≤ n)
    (bs : List Byte) {a : Nat} (ha : a < i + bs.length) : (Memory.read? (Memory.putAll m i bs) a).isSome = true := by
  rcases Nat.lt_or_ge a i with hlt | hge
  · rw [Memory.read?_putAll_outside _ _ _ (.inl hlt)]
    exact hm a (by omega)
  · obtain ⟨k, rfl⟩ := Nat.exists_eq_add_of_le hge
    rw [Memory.read?_putAll_inside _ _ _ k (by omega)]
    rfl

/-- Every write of the encoder is one shape: bytes from an index `i` up to which the frame is written, and `flen` just
above them.  It keeps the invariant when the new `estate` allows that length, or the new frame ends in its trailer. -/
theorem State.Inv.write {s : State} (h : s.Inv) {i : Nat} {bs : List Byte} {e : EncState} (hi : i ≤ s.flen)
    (hcap : i + bs.length ≤ s.frameCap) (hidle : e ≠ .idle)
    (hbuild : e = .build → 2 ≤ i + bs.length ∧ i + bs.length ≤ s.frameCap - 2)
    (hdone : e = .done → ∃ body, 2 ≤ body.length ∧
      frameBytes { s with fbuf := Memory.putAll s.fbuf i bs, flen := i + bs.length, estate := e } =
        body ++ lowFirst (crc16 body)) :
    State.Inv { s with fbuf := Memory.putAll s.fbuf i bs, flen := i + bs.length, estate := e } where
  rule36 :=
    { idle_len := fun he => absurd he hidle
      build_len := hbuild
      done_len := fun he => by
        obtain ⟨body, hbody, hframe⟩ := hdone he
        have hlen := congrArg List.length hframe
        simp only [frameBytes_length, List.length_append, lowFirst_length] at hlen
        exact ⟨by simp only; omega, hcap, by rw [hframe, crc16_append_lowFirst]⟩
      cause_iff := h.rule36.cause_iff }
  cap_ok := h.cap_ok
  fbuf_wf := Memory.putAll_wf h.fbuf_wf i bs
  fbuf_inside := Memory.putAll_inside h.fbuf_inside hcap
  written := fun _ ha => read?_putAll_isSome h.written hi bs ha
  trailer := hdone
  cause_sticky := h.cause_sticky
  eop_clear := h.eop_clear

theorem Effect.inv {i : Instr} {s t : State} (h : Effect i s t) (hs : s.Inv) : t.Inv := by
  obtain ⟨_, hcap, _⟩ := hs.bounds
  cases h with
  | crcInit => exact hs.congr rfl rfl rfl rfl rfl rfl
  | crcByte b => exact hs.congr rfl rfl rfl rfl rfl rfl
  | crcCmp v => exact hs.congr rfl rfl rfl rfl rfl rfl
  | seq => exact hs.raiseError _ _
  | ovf => exact hs.raiseError _ _
  | encNew adr fc _ room =>
    exact hs.write (i := 0) (bs := [adr, fc]) (Nat.zero_le _) room (by simp) (fun _ => ⟨by simp, by simp; omega⟩)
      (fun he => by cases he)
  | append _ _ bs _ build room =>
    obtain ⟨hlow, _⟩ := hs.rule36.build_len build
    exact hs.write (Nat.le_refl _) (by omega) (by simp) (fun _ => ⟨by omega, by omega⟩) (fun he => by cases he)
  | encFinal _ build room =>
    obtain ⟨hlow, _⟩ := hs.rule36.build_len build
    exact hs.write (Nat.le_refl _) room (by simp) (fun he => by cases he)
      (fun _ => ⟨frameBytes s, by simpa using hlow, frameBytes_putAll s _ .done⟩)

theorem Issued.inv {cw : CmdWord} {s t : State} (h : Issued cw s t) (hs : s.Inv) : t.Inv := by
  cases h with
  | command _ effect => exact effect.inv hs
  | illegal => exact hs.raiseError _ _

theorem Stepped.inv {s t : State} (h : Stepped s t) (hs : s.Inv) : t.Inv := by
  cases h with
  | nothing => exact hs
  | reset => exact applyReset_inv hs.cap_ok
  | release => exact hs.congr rfl rfl rfl rfl rfl rfl
  | read p rest => rw [afterRead_eq]; exact hs.congr rfl rfl rfl rfl rfl rfl
  | idle => exact hs.congr rfl rfl rfl rfl rfl rfl
  | withdraw => exact hs.congr rfl rfl rfl rfl rfl rfl
  | notReady => exact hs.congr rfl rfl rfl rfl rfl rfl
  | accepted _ _ _ _ _ _ _ _ _ issued => exact issued.inv (hs.congr rfl rfl rfl rfl rfl rfl)

/-- The step in which `rst` is asserted. -/
theorem step_assertRst {s : State} {rest : List HostEvent} (h : s.events = .assertRst :: rest) :
    step s = .next (applyReset { s with events := rest }) := step_of_events h

/-- Settles O51: what a step can do, event by event, keeps the invariant. -/
theorem stepKeepsTheInvariant : Obligations.StepKeepsTheInvariant := by
  unfold Obligations.StepKeepsTheInvariant
  exact ⟨fun _ _ hs h => (stepped_of_step h).inv hs,
    fun _ _ hcap hev => ⟨_, step_assertRst hev, applyReset_inv hcap⟩⟩

/-- Settles O50: the reset values meet the invariant at every allowed capacity, 256 among them. -/
theorem invariantHoldsAtReset : Obligations.InvariantHoldsAtReset := by
  unfold Obligations.InvariantHoldsAtReset
  exact ⟨resetOf_inv (by decide), fun _ hcap => resetOf_inv hcap⟩

end Sys2Proof.Machine
end

section
/-! SUPPORT. Which elements a command writes (R46); and the proof that only the commands its rule names write each. -/

namespace Sys2Proof.Machine

/-- Only CRC_CMP writes `match`. -/
theorem Effect.crcMatch_eq {i : Instr} {s t : State} (h : Effect i s t) (hcmp : ∀ v, i ≠ .crcCmp v) :
    t.crcMatch = s.crcMatch := by
  cases h with
  | crcCmp v => exact absurd rfl (hcmp v)
  | _ => rfl

theorem isCrcCommand_of_append {i : Instr} {bs : List Byte} (h : appendBytes i = some bs) : isCrcCommand i = false := by
  cases i <;> cases h <;> rfl

/-- The CRC commands write neither `flen` nor `estate`. -/
theorem Effect.flen_estate_eq {i : Instr} {s t : State} (h : Effect i s t) (hcrc : isCrcCommand i = true) :
    t.flen = s.flen ∧ t.estate = s.estate := by
  cases h with
  | encNew => cases hcrc
  | append _ _ _ bytes => cases (isCrcCommand_of_append bytes).symm.trans hcrc
  | encFinal => cases hcrc
  | _ => exact ⟨rfl, rfl⟩

/-- The index is one that a command may write: 0 or 1 for ENC_NEW (R79), and from the old `flen` to below the new one
for an append or ENC_FINAL in BUILD (R81 to R84). -/
def MayWrite (i : Instr) (s t : State) (a : Nat) : Prop :=
  (isEncNew i = true ∧ a < 2) ∨ (needsBuild i = true ∧ s.estate = .build ∧ s.flen ≤ a ∧ a < t.flen)

/-- Bytes put from index `start` up change no byte elsewhere. -/
theorem index_of_memRead_ne {s t : State} {a start : Nat} {bs : List Byte} (h : memRead t a ≠ memRead s a)
    (hbuf : t.fbuf = Memory.putAll s.fbuf start bs) (hres : t.resets = s.resets) :
    start ≤ a ∧ a < start + bs.length := by
  by_contra hout
  exact h (memRead_putAll_outside hbuf hres (by omega))

theorem Effect.mayWrite {i : Instr} {s t : State} (h : Effect i s t) {a : Nat} (ha : memRead t a ≠ memRead s a) :
    MayWrite i s t a := by
  cases h with
  | encNew =>
    have hin := index_of_memRead_ne ha rfl rfl
    exact .inl ⟨rfl, hin.2⟩
  | append _ _ bs bytes build =>
    have hin := index_of_memRead_ne ha rfl rfl
    exact .inr ⟨by simp [needsBuild, bytes], build, hin⟩
  | encFinal _ build =>
    have hin := index_of_memRead_ne ha rfl rfl
    exact .inr ⟨rfl, build, hin⟩
  | _ => exact absurd rfl ha

/-- A command writes the CRC, the flag, the frame side and the error record, and nothing else. -/
theorem Effect.frame {i : Instr} {s t : State} (h : Effect i s t) :
    t = { s with
      crc := t.crc, crcMatch := t.crcMatch, fbuf := t.fbuf, flen := t.flen, estate := t.estate, err := t.err } := by
  cases h <;> rfl

/-- Settles O33: read off the effects of the commands, element by element. -/
theorem onlyNamedCommandsWriteEachElement : Obligations.OnlyNamedCommandsWriteEachElement := by
  unfold Obligations.OnlyNamedCommandsWriteEachElement
  intro i s t h
  have he : Effect i s t := effect_of_exec h
  refine ⟨fun hc => ?_, fun hm => ?_, fun hf => ?_, fun _ ha => he.mayWrite ha, he.frame⟩
  · by_contra hi
    rw [not_or, not_exists] at hi
    exact hc (he.crc_eq hi.1 hi.2)
  · by_contra hi
    exact hm (he.crcMatch_eq (not_exists.mp hi))
  · by_contra hi
    obtain ⟨hlen, hst⟩ := he.flen_estate_eq (Bool.eq_true_of_not_eq_false hi)
    exact hf.elim (· hlen) (· hst)

end Sys2Proof.Machine
end

section
/-! SUPPORT. An accepted word performs its command or raises ILL (R16, R58); and the proof that a step does so. -/

namespace Sys2Proof.Machine

theorem issue_command {cw : CmdWord} {i : Instr} (h : decode cw = .command i) (s : State) : issue cw s = exec i s := by
  rw [issue, h]

theorem issue_illegal {cw : CmdWord} {why : DecodeError} (h : decode cw = .illegal why) (s : State) :
    issue cw s = .next (raiseError .ill (opOf cw) s) := by rw [issue, h]

/-- Settles O1: the accepted word is issued, which performs its command or raises ILL. -/
theorem stepPerformsTheAcceptedWord : Obligations.StepPerformsTheAcceptedWord := by
  unfold Obligations.StepPerformsTheAcceptedWord
  exact ⟨fun _ _ _ _ ha hd => (step_of_accepts ha).trans (issue_command hd _),
    fun _ _ _ _ ha hd => (step_of_accepts ha).trans (issue_illegal hd _), fun _ _ _ => ⟨rfl, rfl⟩⟩

end Sys2Proof.Machine
end

section
/-! SUPPORT. Runs of the host's events: a good state goes on after each (R91), and what an event does is not seen by
the events after it (R48); and the proof that every event is taken. -/

namespace Sys2Proof.Machine

/-! ### A good state goes on -/

theorem State.Inv.not_writesOutside {s : State} (hs : s.Inv) (i : Instr) : ¬ WritesOutside i s := by
  obtain ⟨_, hcap, _⟩ := hs.bounds
  rintro (⟨_, h⟩ | ⟨_, hb, h⟩)
  · omega
  · have := hs.rule36.build_len hb
    omega

theorem State.Inv.exec_next {s : State} (hs : s.Inv) (i : Instr) : ∃ t, exec i s = .next t :=
  (exec_ends i s).resolve_right fun h => hs.not_writesOutside i h.2

theorem State.Inv.issue_next {s : State} (hs : s.Inv) (cw : CmdWord) : ∃ t, issue cw s = .next t := by
  cases hd : decode cw with
  | command i => rw [issue_command hd]; exact hs.exec_next i
  | illegal why => exact ⟨_, issue_illegal hd s⟩

theorem State.Inv.withEvents {s : State} (hs : s.Inv) (later : List HostEvent) : State.Inv { s with events := later } :=
  hs.congr rfl rfl rfl rfl rfl rfl

theorem onOffer_ready {s : State} (h : s.cmdReady = true) (word : CmdWord) (changed : List CmdWord) :
    onOffer word changed s =
      issue (acceptedWord word changed s.draws) { s with draws := drawsAfterOffer changed s.draws } := if_pos h

theorem onOffer_inReset {s : State} (h : s.cmdReady = false) (word : CmdWord) (changed : List CmdWord) :
    onOffer word changed s = .next s := if_neg (by simp [h])

theorem State.Inv.onEvent_next {s : State} (hs : s.Inv) (e : HostEvent) : ∃ t, onEvent e s = .next t := by
  cases e with
  | offer word changed =>
    cases hr : s.cmdReady with
    | true =>
      have hs' : State.Inv { s with draws := drawsAfterOffer changed s.draws } := hs.congr rfl rfl rfl rfl rfl rfl
      obtain ⟨t, ht⟩ := hs'.issue_next (acceptedWord word changed s.draws)
      exact ⟨t, (onOffer_ready hr word changed).trans ht⟩
    | false => exact ⟨_, onOffer_inReset hr word changed⟩
  | _ => exact ⟨_, rfl⟩

theorem State.Inv.of_onEvent {e : HostEvent} {s t : State} (hs : s.Inv) (h : onEvent e s = .next t) : t.Inv :=
  (stepped_of_step (s := { s with events := e :: s.events }) h).inv (hs.withEvents _)

/-! ### An event does not see the events after it -/

theorem writeFrame_withEvents (i : Nat) {bs : List Byte} (hne : bs ≠ []) (len : Nat) (e : EncState) (s : State)
    (later : List HostEvent) :
    writeFrame i bs len e { s with events := later } =
      mapNext (fun t => { t with events := later }) (writeFrame i bs len e s) := by
  rcases writeFrame_cases s i bs len e hne with ⟨h, he⟩ | ⟨h, he⟩
  · rw [he]; exact writeFrame_inside _ i bs len e h
  · rw [he]; exact writeFrame_outside _ i bs len e hne h

theorem appendPayload_withEvents (op : Opcode) (bs : List Byte) (s : State) (later : List HostEvent) :
    appendPayload op bs { s with events := later } =
      mapNext (fun t => { t with events := later }) (appendPayload op bs s) := by
  rcases appendPayload_cases op bs s with ⟨h, he⟩ | ⟨h, hr, he⟩ | ⟨h, hr, he⟩
  · rw [he]; exact appendPayload_seq op bs h
  · rw [he]; exact appendPayload_ovf op h hr
  · rw [he]; exact appendPayload_room op h hr

theorem execEncFinal_build {s : State} (h : s.estate = .build) :
    execEncFinal s = writeFrame s.flen (lowFirst (crc16 (frameBytes s))) (s.flen + 2) .done s := if_neg (by simp [h])

theorem execEncFinal_outside_build {s : State} (h : s.estate ≠ .build) :
    execEncFinal s = .next (raiseError .seq 0x13#8 s) := if_pos h

theorem execEncFinal_withEvents (s : State) (later : List HostEvent) :
    execEncFinal { s with events := later } = mapNext (fun t => { t with events := later }) (execEncFinal s) := by
  by_cases h : s.estate = .build
  · rw [execEncFinal_build h, execEncFinal_build (s := { s with events := later }) h]
    exact writeFrame_withEvents _ (by simp [lowFirst]) _ _ s later
  · rw [execEncFinal_outside_build h, execEncFinal_outside_build (s := { s with events := later }) h]
    rfl

theorem exec_withEvents (i : Instr) (s : State) (later : List HostEvent) :
    exec i { s with events := later } = mapNext (fun t => { t with events := later }) (exec i s) := by
  cases i with
  | crcInit => rfl
  | crcByte b => rfl
  | crcCmp h => rfl
  | encNew adr fc => exact writeFrame_withEvents 0 (by simp) 2 .build s later
  | encU16 h => exact appendPayload_withEvents _ _ s later
  | encI32 w => exact appendPayload_withEvents _ _ s later
  | encFinal => exact execEncFinal_withEvents s later
  | encU8 b => exact appendPayload_withEvents _ _ s later

theorem issue_withEvents (cw : CmdWord) (s : State) (later : List HostEvent) :
    issue cw { s with events := later } = mapNext (fun t => { t with events := later }) (issue cw s) := by
  cases hd : decode cw with
  | command i => rw [issue_command hd, issue_command hd, exec_withEvents]
  | illegal why => rw [issue_illegal hd, issue_illegal hd]; rfl

theorem onEvent_withEvents (e : HostEvent) (s : State) (later : List HostEvent) :
    onEvent e { s with events := later } = mapNext (fun t => { t with events := later }) (onEvent e s) := by
  cases e with
  | offer word changed =>
    show onOffer word changed { s with events := later } = mapNext _ (onOffer word changed s)
    rcases Bool.eq_false_or_eq_true s.cmdReady with hr | hr
    · rw [onOffer_ready hr, onOffer_ready (s := { s with events := later }) hr]
      exact issue_withEvents _ { s with draws := _ } later
    · rw [onOffer_inReset hr, onOffer_inReset (s := { s with events := later }) hr]
      rfl
  | read p => cases p with
    | frame addr => simp only [onEvent, afterRead, mapNext]; split <;> rfl
    | _ => rfl
  | _ => rfl

/-- An event leaves the events after it on the schedule. -/
theorem events_of_onEvent {e : HostEvent} {s t : State} (h : onEvent e s = .next t) : t.events = s.events := by
  have hw := onEvent_withEvents e s s.events
  rw [show ({ s with events := s.events } : State) = s from rfl, h] at hw
  injection hw with ht
  rw [ht]

/-! ### Runs -/

theorem run_one (M : Host.Core) (s : M.State) : M.run 1 s = M.step s := by
  simp only [Host.Core.run]
  cases M.step s <;> rfl

theorem run_add (M : Host.Core) {m : Nat} (n : Nat) {s t : M.State} (h : M.run m s = .next t) :
    M.run (m + n) s = M.run n t := by
  induction m generalizing s with
  | zero => cases h; rw [Nat.zero_add]
  | succ m ih =>
    cases hs : M.step s with
    | next u => rw [run_succ M hs] at h; rw [Nat.succ_add, run_succ M hs, ih h]
    | fault f => simp [Host.Core.run, hs] at h
    | refused r => simp [Host.Core.run, hs] at h

/-- A run from a good state, event by event. -/
theorem State.Inv.runEvents_next {s : State} (hs : s.Inv) (es : List HostEvent) :
    ∃ t, runEvents es s = .next t ∧ t.events = [] ∧ t.Inv := by
  induction es generalizing s with
  | nil => exact ⟨_, runEvents_nil s, rfl, hs.withEvents []⟩
  | cons e es ih =>
    obtain ⟨u, hu⟩ := (hs.withEvents es).onEvent_next e
    rw [runEvents_cons hu (events_of_onEvent hu)]
    exact ih ((hs.withEvents es).of_onEvent hu)

/-- The events of a run go the same way with more events to come after them. -/
theorem State.Inv.run_with_later {s t : State} (hs : s.Inv) {es : List HostEvent} (h : runEvents es s = .next t)
    (later : List HostEvent) :
    Host.Core.run Sys2Proof.core es.length { s with events := es ++ later } = .next { t with events := later } := by
  induction es generalizing s with
  | nil => cases h; rfl
  | cons e es ih =>
    obtain ⟨u, hu⟩ := (hs.withEvents es).onEvent_next e
    have hstep : step { s with events := (e :: es) ++ later } = .next { u with events := es ++ later } :=
      (onEvent_withEvents e { s with events := es } (es ++ later)).trans (by rw [hu]; rfl)
    rw [runEvents_cons hu (events_of_onEvent hu)] at h
    refine Eq.trans ?_ (ih ((hs.withEvents es).of_onEvent hu) h)
    exact run_succ Sys2Proof.core hstep

/-- A word offered after other events, to a block that is then out of reset, is issued. -/
theorem State.Inv.runEvents_offer_last {s t : State} (hs : s.Inv) {before : List HostEvent}
    (h : runEvents before s = .next t) (hev : t.events = []) (hr : t.cmdReady = true) (cw : CmdWord) :
    runEvents (before ++ [.offer cw []]) s = issue cw t := by
  have haccepts : Accepts { t with events := [.offer cw []] } cw t.events := ⟨by rw [hev], hr⟩
  have hlast : Host.Core.run Sys2Proof.core 1 { t with events := [.offer cw []] } = issue cw t :=
    (run_one Sys2Proof.core _).trans (step_of_accepts haccepts)
  rw [runEvents, List.length_append]
  exact (run_add Sys2Proof.core 1 (hs.run_with_later h _)).trans hlast

/-- Settles O54: a good state takes every event and stays good, so the word offered last is issued and runs. -/
theorem everyEventIsTaken : Obligations.EveryEventIsTaken := by
  unfold Obligations.EveryEventIsTaken
  refine ⟨fun _ es hs => hs.runEvents_next es, fun s before cw hs => ?_⟩
  obtain ⟨t, ht, hev, hinv⟩ := hs.runEvents_next before
  exact ⟨t, ht, fun hr => ⟨hs.runEvents_offer_last ht hev hr cw, hinv.issue_next cw⟩⟩

end Sys2Proof.Machine
end

section
/-! SUPPORT. STATUS bit by bit (R28), and the proof of its layout. -/

namespace Sys2Proof.Machine

/-- A flag moved to bit `n`. -/
theorem bit_shiftLeft_getLsbD (b : Bool) {n i : Nat} (h : i < 16) :
    (bit b <<< n).getLsbD i = (decide (i = n) && b) := by
  rcases Nat.lt_trichotomy i n with hlt | rfl | hgt
  · simp [hlt, Nat.ne_of_lt hlt]
  · cases b <;> simp [bit, h]
  · cases b <;> simp [BitVec.getLsbD_shiftLeft, bit, Nat.ne_of_gt hgt, show i - n ≠ 0 by omega]

theorem getLsbD_of_lt_four {c : Half} (h : c.toNat < 4) {i : Nat} (hi : 2 ≤ i) : c.getLsbD i = false :=
  Nat.testBit_lt_two_pow (Nat.lt_of_lt_of_le h (Nat.pow_le_pow_right (n := 2) Nat.two_pos hi))

theorem code_lt_four (e : EncState) : e.code.toNat < 4 := by cases e <;> decide

theorem causeCode_lt_four (c : Option ErrKind) : (causeCode c).toNat < 4 := by
  cases c with
  | none => decide
  | some e => cases e <;> decide

/-- Every bit of STATUS. -/
theorem statusOut_getLsbD (s : State) {i : Nat} (h : i < 16) :
    (statusOut s).getLsbD i =
      ((decide (8 ≤ i) && (causeCode s.err.cause).getLsbD (i - 8)) || (decide (i = 6) && s.err.ovf) ||
        (decide (i = 5) && s.err.seq) || (decide (i = 4) && s.err.ill) || (decide (i = 2) && s.crcMatch) ||
        s.estate.code.getLsbD i) := by
  simp only [statusOut, statusWord, BitVec.getLsbD_or, bit_shiftLeft_getLsbD _ h]
  simp only [BitVec.getLsbD_shiftLeft, h, decide_true, Bool.true_and, ← decide_not, Nat.not_lt]

theorem statusOut_getLsbD_low (s : State) {i : Nat} (h : i < 2) :
    (statusOut s).getLsbD i = s.estate.code.getLsbD i := by
  rw [statusOut_getLsbD s (by omega)]
  simp only [show ¬ 8 ≤ i by omega, show i ≠ 6 by omega, show i ≠ 5 by omega, show i ≠ 4 by omega,
    show i ≠ 2 by omega, decide_false, Bool.false_and, Bool.false_or]

/-- The single-bit fields, and the reserved bits among them. -/
theorem statusOut_getLsbD_flag (s : State) {i : Nat} (h2 : 2 ≤ i) (h8 : i < 8) :
    (statusOut s).getLsbD i =
      ((decide (i = 6) && s.err.ovf) || (decide (i = 5) && s.err.seq) || (decide (i = 4) && s.err.ill) ||
        (decide (i = 2) && s.crcMatch)) := by
  rw [statusOut_getLsbD s (by omega), getLsbD_of_lt_four (code_lt_four _) h2, decide_eq_false (by omega)]
  simp only [Bool.false_and, Bool.false_or, Bool.or_false]

theorem statusOut_getLsbD_high (s : State) {i : Nat} (h8 : 8 ≤ i) (h16 : i < 16) :
    (statusOut s).getLsbD i = (causeCode s.err.cause).getLsbD (i - 8) := by
  rw [statusOut_getLsbD s h16, getLsbD_of_lt_four (code_lt_four _) (by omega)]
  simp only [h8, show i ≠ 6 by omega, show i ≠ 5 by omega, show i ≠ 4 by omega, show i ≠ 2 by omega, decide_false,
    decide_true, Bool.false_and, Bool.true_and, Bool.or_false]

theorem statusOut_state (s : State) : (statusOut s).extractLsb' 0 2 = s.estate.code.extractLsb' 0 2 := by
  refine BitVec.eq_of_getLsbD_eq fun i hi => ?_
  simp only [BitVec.getLsbD_extractLsb', Nat.zero_add, statusOut_getLsbD_low s hi]

theorem statusOut_cause (s : State) : (statusOut s).extractLsb' 8 2 = (causeCode s.err.cause).extractLsb' 0 2 := by
  refine BitVec.eq_of_getLsbD_eq fun i hi => ?_
  simp only [BitVec.getLsbD_extractLsb', Nat.zero_add, statusOut_getLsbD_high s (Nat.le_add_right 8 i) (by omega),
    Nat.add_sub_cancel_left]

theorem statusOut_reserved (s : State) {i : Nat} (hi : i ∈ [3, 7, 10, 11, 12, 13, 14, 15]) :
    (statusOut s).getLsbD i = false := by
  have hcases : i = 3 ∨ i = 7 ∨ (10 ≤ i ∧ i < 16) := by
    simp only [List.mem_cons, List.not_mem_nil, or_false] at hi
    omega
  rcases hcases with rfl | rfl | ⟨h10, h16⟩
  · exact (statusOut_getLsbD_flag s (by decide) (by decide)).trans (by simp)
  · exact (statusOut_getLsbD_flag s (by decide) (by decide)).trans (by simp)
  · rw [statusOut_getLsbD_high s (by omega) h16, getLsbD_of_lt_four (causeCode_lt_four _) (by omega)]

theorem statusOut_resetOf (cap : Nat) : statusOut (State.resetOf cap) = 0x0000#16 := by
  show statusWord .clear false .idle = 0x0000#16
  decide

/-- Settles O42: each field is read off the bits of the composed word. -/
theorem statusLayout : Obligations.StatusLayout := by
  unfold Obligations.StatusLayout
  refine ⟨fun s => ⟨?_, ?_, ?_, ?_, ?_, ?_, fun _ => statusOut_reserved s, ?_⟩, statusOut_resetOf⟩
  · rw [statusOut_state]; cases s.estate <;> rfl
  · exact (statusOut_getLsbD_flag s (by decide) (by decide)).trans (by simp)
  · exact (statusOut_getLsbD_flag s (by decide) (by decide)).trans (by simp)
  · exact (statusOut_getLsbD_flag s (by decide) (by decide)).trans (by simp)
  · exact (statusOut_getLsbD_flag s (by decide) (by decide)).trans (by simp)
  · rw [statusOut_cause]; rcases s.err.cause with _ | _ | _ | _ <;> rfl
  · rw [statusOut_state]; cases s.estate <;> decide

end Sys2Proof.Machine
end

section
/-! SUPPORT. What a read answers and what it leaves as it is (R17, R29 to R32); and the proofs about the ports. -/

namespace Sys2Proof.Machine

theorem lenOut_toNat {s : State} (h : s.Inv) : (lenOut s).toNat = s.flen := by
  obtain ⟨hlen, _, hcap⟩ := h.bounds
  rw [lenOut, BitVec.toNat_ofNat]
  exact Nat.mod_eq_of_lt (by omega)

theorem frameOut_below {s : State} {addr : Half} (h : addr.toNat < s.flen) : frameOut addr s = memRead s addr.toNat :=
  if_pos h

theorem frameOut_above {s : State} {addr : Half} (h : s.flen ≤ addr.toNat) :
    frameOut addr s = Config.frameDraw s.draws := if_neg (Nat.not_lt.mpr h)

/-- A read of a port that the rules specify uses up no draw. -/
theorem afterRead_specified {p : ReadPort} {s : State} (h : ∀ addr, p = .frame addr → addr.toNat < s.flen) :
    afterRead p s = s := by
  cases p with
  | frame addr => exact if_pos (h addr rfl)
  | _ => rfl

theorem afterRead_frame_above {s : State} {addr : Half} (h : s.flen ≤ addr.toNat) :
    afterRead (.frame addr) s = { s with draws := s.draws + 1 } := if_neg (Nat.not_lt.mpr h)

/-- What a port answers does not depend on what the host does next. -/
theorem readPort_withEvents (p : ReadPort) (s : State) (later : List HostEvent) :
    readPort p { s with events := later } = readPort p s := by cases p <;> rfl

theorem hostReads_of_read {s : State} {p : ReadPort} {rest : List HostEvent} (h : s.events = .read p :: rest) :
    hostReads s = some (readPort p s) := by rw [hostReads, h]

theorem step_read {s : State} {p : ReadPort} {rest : List HostEvent} (h : s.events = .read p :: rest) :
    step s = .next (afterRead p { s with events := rest }) := step_of_events h

/-- Settles O43: the ports are the elements, and a good state's `flen` fits in 16 bits. -/
theorem lenEopCrcPorts : Obligations.LenEopCrcPorts := by
  unfold Obligations.LenEopCrcPorts
  exact ⟨fun _ => ⟨rfl, rfl, rfl⟩, fun _ => lenOut_toNat, fun _ => ⟨rfl, rfl, rfl⟩⟩

/-- Settles O44: the two sides of `flen`, and the step of a read. -/
theorem framePortReads : Obligations.FramePortReads := by
  unfold Obligations.FramePortReads
  exact ⟨fun _ _ => frameOut_below, fun _ _ => frameOut_above,
    fun _ _ _ h => ⟨hostReads_of_read h, _, step_read h, afterRead_eq _ _⟩⟩

/-- Settles O45: a specified read leaves the state as it is, and an unspecified one uses up one draw. -/
theorem readsHaveNoSideEffect : Obligations.ReadsHaveNoSideEffect := by
  unfold Obligations.ReadsHaveNoSideEffect
  intro s p rest h
  refine ⟨hostReads_of_read h, _, step_read h, afterRead_eq _ _, fun hspec => ?_, fun addr hp hlen => ?_⟩
  · rw [afterRead_specified (s := { s with events := rest }) hspec]
    exact ⟨rfl, readPort_withEvents p s rest⟩
  · subst hp
    rw [afterRead_frame_above (s := { s with events := rest }) hlen]

end Sys2Proof.Machine
end

section
/-! SUPPORT. Nothing but reset clears a sticky bit (R25, R99); and the proof of what reset does (R35, R108). -/

namespace Sys2Proof.Machine

theorem Effect.sticky {i : Instr} {s t : State} (h : Effect i s t) {k : ErrKind} (hk : s.err.sticky k = true) :
    t.err.sticky k = true := by
  cases h with
  | seq => simp [record_sticky, hk]
  | ovf => simp [record_sticky, hk]
  | _ => exact hk

theorem Issued.sticky {cw : CmdWord} {s t : State} (h : Issued cw s t) {k : ErrKind} (hk : s.err.sticky k = true) :
    t.err.sticky k = true := by
  cases h with
  | command _ effect => exact effect.sticky hk
  | illegal => simp [record_sticky, hk]

theorem Stepped.sticky_or_reset {s t : State} (h : Stepped s t) {k : ErrKind} (hk : s.err.sticky k = true) :
    t.err.sticky k = true ∨ ∃ rest, s.events = .assertRst :: rest := by
  cases h with
  | reset rest next => exact .inr ⟨rest, next⟩
  | read => rw [afterRead_eq]; exact .inl hk
  | accepted _ _ _ _ _ _ _ _ _ issued => exact .inl (issued.sticky hk)
  | _ => exact .inl hk

/-- After `rst` every byte of the buffer is unspecified anew (U1). -/
theorem applyReset_memRead (s : State) (a : Nat) :
    memRead (applyReset s) a = Config.fbufAfterReset (applyReset s).resets a := rfl

/-- Settles O48: the reset values are those of `applyReset`, and no other event clears a sticky bit. -/
theorem resetSetsEveryElement : Obligations.ResetSetsEveryElement := by
  unfold Obligations.ResetSetsEveryElement
  refine ⟨fun s rest h => ⟨_, step_assertRst h, ?_⟩, fun _ _ h => step_of_events h, fun s t k h hs ht => ?_, ?_⟩
  · exact ⟨rfl, rfl, rfl, rfl, rfl, rfl, rfl, rfl, rfl, rfl, applyReset_memRead _, rfl, rfl, rfl, rfl⟩
  · exact ((stepped_of_step h).sticky_or_reset hs).resolve_left (by simp [ht])
  · exact ⟨rfl, rfl, rfl, rfl, rfl, rfl, rfl⟩

end Sys2Proof.Machine
end

section
/-! SUPPORT. The byte orders of a field, read back (R39, R40); and the proof of it. -/

namespace Sys2Proof.Machine

/-- The accumulator holds the field's bits from `n + 8` up; the next byte in wire order brings it down to bit `n`. -/
theorem shiftLeft_or_nextByte {w : Nat} (v : BitVec w) (n : Nat) :
    ((v >>> (n + 8)) <<< 8) ||| (v.extractLsb' n 8).zeroExtend w = v >>> n := by
  refine BitVec.eq_of_getLsbD_eq fun i hi => ?_
  simp only [BitVec.getLsbD_or, BitVec.getLsbD_shiftLeft, BitVec.getLsbD_ushiftRight, BitVec.truncate_eq_setWidth,
    BitVec.getLsbD_setWidth, BitVec.getLsbD_extractLsb', hi, decide_true, Bool.true_and]
  by_cases h8 : i < 8
  · simp only [h8, decide_true, Bool.not_true, Bool.false_and, Bool.false_or, Bool.true_and]
  · simp only [h8, decide_false, Bool.not_false, Bool.false_and, Bool.or_false, Bool.true_and]
    rw [show n + 8 + (i - 8) = n + i by omega]

theorem be16_readBack (v : Half) :
    (be16 v).foldl (fun (acc : Half) b => (acc <<< 8) ||| b.zeroExtend 16) 0#16 = v := by
  have hstart : 0#16 = v >>> (8 + 8) := (BitVec.ushiftRight_eq_zero (by decide)).symm
  simp only [be16, List.foldl_cons, List.foldl_nil]
  rw [hstart, shiftLeft_or_nextByte v 8, shiftLeft_or_nextByte v 0, BitVec.ushiftRight_zero]

theorem be32_readBack (v : Arg) :
    (be32 v).foldl (fun (acc : Arg) b => (acc <<< 8) ||| b.zeroExtend 32) 0#32 = v := by
  have hstart : 0#32 = v >>> (24 + 8) := (BitVec.ushiftRight_eq_zero (by decide)).symm
  simp only [be32, List.foldl_cons, List.foldl_nil]
  rw [hstart, shiftLeft_or_nextByte v 24, shiftLeft_or_nextByte v 16, shiftLeft_or_nextByte v 8,
    shiftLeft_or_nextByte v 0, BitVec.ushiftRight_zero]

theorem trailerRef_lowFirst (c : Half) : trailerRef (c.extractLsb' 0 8) (c.extractLsb' 8 8) = c :=
  (BitVec.extractLsb'_append_extractLsb'_eq_extractLsb' rfl).trans BitVec.extractLsb'_eq_self

/-- Settles O24: each byte taken in extends the accumulated part of the field, and the CRC's bytes join to it. -/
theorem byteOrdersReadBack : Obligations.ByteOrdersReadBack := by
  unfold Obligations.ByteOrdersReadBack
  exact ⟨be16_readBack, be32_readBack, fun c => ⟨_, _, rfl, trailerRef_lowFirst c⟩⟩

end Sys2Proof.Machine
end

section
/-! SUPPORT. The order of events (R48): what an event does and what a read answers, with more events to come. -/

namespace Sys2Proof.Machine

/-- Settles O53: no command and no other event looks at the rest of the schedule. -/
theorem eventsDoNotSeeTheFuture : Obligations.EventsDoNotSeeTheFuture := by
  unfold Obligations.EventsDoNotSeeTheFuture
  exact onEvent_withEvents

/-- Settles O55: the run up to the read is the run of the events before it alone, whose state the port then shows. -/
theorem readsSeeEveryEarlierCommand : Obligations.ReadsSeeEveryEarlierCommand := by
  unfold Obligations.ReadsSeeEveryEarlierCommand
  intro s before p after hs
  obtain ⟨t, hrun, _, _⟩ := hs.runEvents_next before
  have hread : hostReads { t with events := .read p :: after } = some (readPort p t) :=
    (hostReads_of_read rfl).trans (congrArg some (readPort_withEvents p t _))
  exact ⟨t, hrun, hs.run_with_later hrun _, hread⟩

end Sys2Proof.Machine
end

section
/-! SUPPORT. The decoder row by row of the opcode map (R55, R57): the reserved bits of a word's form decide whether it
is a command, and a command keeps every other bit; and the proofs about decoding and encoding. -/

namespace Sys2Proof

/-! ### The reserved bits of a form -/

/-- Every reserved bit of the form is 0. -/
def Form.clear (form : Form) (arg : Arg) : Bool := arg &&& form.reserved == 0#32

/-- A mask of the bits from `n` up reads the field of those bits. -/
theorem and_highMask_eq_zero_iff {w n m : Nat} (h : n + m = w) (v : BitVec w) :
    v &&& (BitVec.allOnes w <<< n) = 0#w ↔ v.extractLsb' n m = 0#m := by
  constructor
  · intro hv
    refine BitVec.eq_of_getLsbD_eq fun i hi => ?_
    have := congrArg (fun u => u.getLsbD (n + i)) hv
    simpa [hi, show n + i < w by omega] using this
  · intro hv
    refine BitVec.eq_of_getLsbD_eq fun i hi => ?_
    have := congrArg (fun u => u.getLsbD (i - n)) hv
    rcases Nat.lt_or_ge i n with hlt | hge
    · simp [hlt]
    · simpa [hi, Nat.not_lt.mpr hge, show i - n < m by omega, show n + (i - n) = i by omega] using this

theorem clear_N (arg : Arg) : Form.N.clear arg = clearN arg :=
  congrArg (· == 0#32) (BitVec.and_allOnes (x := arg))

theorem clear_B (arg : Arg) : Form.B.clear arg = clearB arg := by
  rw [Bool.eq_iff_iff, Form.clear, clearB, beq_iff_eq, beq_iff_eq]
  exact and_highMask_eq_zero_iff (n := 8) (m := 24) rfl arg

theorem clear_H (arg : Arg) : Form.H.clear arg = clearH arg := by
  rw [Bool.eq_iff_iff, Form.clear, clearH, beq_iff_eq, beq_iff_eq]
  exact and_highMask_eq_zero_iff (n := 16) (m := 16) rfl arg

/-- The forms H and A have the same reserved bits. -/
theorem clear_A (arg : Arg) : Form.A.clear arg = clearH arg := clear_H arg

theorem clear_W (arg : Arg) : Form.W.clear arg = true := by
  rw [Form.clear, beq_iff_eq]
  exact BitVec.and_zero

/-! ### A word whose opcode is defined -/

/-- The operand fields, where the reserved bits are clear, are the whole operand. -/
theorem address_of_clearH {arg : Arg} (h : clearH arg = true) : 0#16 ++ fieldAdr arg ++ fieldFc arg = arg := by
  rw [addressArg_eq, ← fieldH_eq_address, fieldH_of_clearH h]

/-- The eight rows of the opcode map. -/
theorem opcodeForms_cases {op : Opcode} {form : Form} (h : (op, form) ∈ opcodeForms) :
    (op = 0x01#8 ∧ form = .N) ∨ (op = 0x02#8 ∧ form = .B) ∨ (op = 0x03#8 ∧ form = .H) ∨ (op = 0x10#8 ∧ form = .A) ∨
      (op = 0x11#8 ∧ form = .H) ∨ (op = 0x12#8 ∧ form = .W) ∨ (op = 0x13#8 ∧ form = .N) ∨ (op = 0x14#8 ∧ form = .B) := by
  simpa [opcodeForms] using h

/-- A row of the opcode map has one command, whose opcode and operand are those of the word. -/
theorem decode_of_form {op : Opcode} {form : Form} (h : (op, form) ∈ opcodeForms) (arg : Arg) :
    ∃ i, decode (wordOf op arg) = ifClear (form.clear arg) i ∧
      (form.clear arg = true → i.opcode = op ∧ i.arg = arg) := by
  rcases opcodeForms_cases h with ⟨rfl, rfl⟩ | ⟨rfl, rfl⟩ | ⟨rfl, rfl⟩ | ⟨rfl, rfl⟩ | ⟨rfl, rfl⟩ | ⟨rfl, rfl⟩ |
    ⟨rfl, rfl⟩ | ⟨rfl, rfl⟩
  · rw [clear_N]
    exact ⟨_, decode_crcInit arg, fun hc => ⟨rfl, (beq_iff_eq.mp hc).symm⟩⟩
  · rw [clear_B]
    exact ⟨_, decode_crcByte arg, fun hc => ⟨rfl, fieldB_of_clearB hc⟩⟩
  · rw [clear_H]
    exact ⟨_, decode_crcCmp arg, fun hc => ⟨rfl, fieldH_of_clearH hc⟩⟩
  · rw [clear_A]
    exact ⟨_, decode_encNew arg, fun hc => ⟨rfl, address_of_clearH hc⟩⟩
  · rw [clear_H]
    exact ⟨_, decode_encU16 arg, fun hc => ⟨rfl, fieldH_of_clearH hc⟩⟩
  · rw [clear_W]
    exact ⟨_, decode_encI32 arg, fun _ => ⟨rfl, rfl⟩⟩
  · rw [clear_N]
    exact ⟨_, decode_encFinal arg, fun hc => ⟨rfl, (beq_iff_eq.mp hc).symm⟩⟩
  · rw [clear_B]
    exact ⟨_, decode_encU8 arg, fun hc => ⟨rfl, fieldB_of_clearB hc⟩⟩

theorem legal_of_form {op : Opcode} {form : Form} (h : (op, form) ∈ opcodeForms) (arg : Arg) :
    legal (wordOf op arg) = form.clear arg := by
  rw [legal_wordOf]
  rcases opcodeForms_cases h with ⟨rfl, rfl⟩ | ⟨rfl, rfl⟩ | ⟨rfl, rfl⟩ | ⟨rfl, rfl⟩ | ⟨rfl, rfl⟩ | ⟨rfl, rfl⟩ |
    ⟨rfl, rfl⟩ | ⟨rfl, rfl⟩
  · exact (clear_N arg).symm
  · exact (clear_B arg).symm
  · exact (clear_H arg).symm
  · exact (clear_A arg).symm
  · exact (clear_H arg).symm
  · exact (clear_W arg).symm
  · exact (clear_N arg).symm
  · exact (clear_B arg).symm

theorem decode_reservedBits {cw : CmdWord} {form : Form} (h : (opOf cw, form) ∈ opcodeForms)
    (hset : form.clear (argOf cw) = false) : decode cw = .illegal .reservedBits := by
  obtain ⟨i, hd, _⟩ := decode_of_form h (argOf cw)
  rw [wordOf_fields, hset] at hd
  exact hd

/-! ### A word whose opcode is reserved -/

theorem decode_reservedOpcode {cw : CmdWord} (h : opOf cw ∉ opcodeForms.map Prod.fst) :
    decode cw = .illegal .reservedOpcode := by
  simp only [opcodeForms, List.map_cons, List.map_nil, List.mem_cons, List.not_mem_nil, or_false, not_or] at h
  obtain ⟨h01, h02, h03, h10, h11, h12, h13, h14⟩ := h
  simp only [decode, h01, h02, h03, h10, h11, h12, h13, h14, if_false]

theorem opcode_mem_of_legal {cw : CmdWord} (h : legal cw = true) : opOf cw ∈ opcodeForms.map Prod.fst := by
  have hrow : (opOf cw).toNat ∈ (opcodeForms.map Prod.fst).map BitVec.toNat := by
    rw [← wordOf_fields cw, legal_wordOf] at h
    split at h
    case h_9 => cases h
    all_goals next hop => rw [hop]; decide
  exact (List.mem_map_of_injective BitVec.toNat_injective).mp hrow

/-! ### Every word -/

/-- Every word is one of R58's two: legal, and the command of its two fields; or not legal, and no command. -/
theorem decode_cases (cw : CmdWord) :
    (legal cw = true ∧ ∃ i, decode cw = .command i ∧ i.opcode = opOf cw ∧ i.arg = argOf cw) ∨
      (legal cw = false ∧ ∃ why, decode cw = .illegal why) := by
  by_cases hop : opOf cw ∈ opcodeForms.map Prod.fst
  · obtain ⟨⟨_, form⟩, hmem, rfl⟩ := List.mem_map.mp hop
    have hlegal := legal_of_form hmem (argOf cw)
    obtain ⟨i, hd, hi⟩ := decode_of_form hmem (argOf cw)
    rw [wordOf_fields] at hlegal hd
    cases hc : form.clear (argOf cw) with
    | true => rw [hc] at hlegal hd; exact .inl ⟨hlegal, i, hd, hi hc⟩
    | false => rw [hc] at hlegal hd; exact .inr ⟨hlegal, _, hd⟩
  · exact .inr ⟨Bool.eq_false_of_not_eq_true (mt opcode_mem_of_legal hop), _, decode_reservedOpcode hop⟩

theorem fields_of_decode {cw : CmdWord} {i : Instr} (h : decode cw = .command i) :
    legal cw = true ∧ i.opcode = opOf cw ∧ i.arg = argOf cw := by
  rcases decode_cases cw with ⟨hl, j, hd, hj⟩ | ⟨_, why, hd⟩
  · cases hd.symm.trans h
    exact ⟨hl, hj⟩
  · cases hd.symm.trans h

theorem legal_iff_decode (cw : CmdWord) : legal cw = true ↔ ∃ i, decode cw = .command i := by
  refine ⟨fun hl => ?_, fun ⟨_, hd⟩ => (fields_of_decode hd).1⟩
  rcases decode_cases cw with ⟨_, i, hd, _⟩ | ⟨hn, _⟩
  · exact ⟨i, hd⟩
  · cases hn.symm.trans hl

/-! ### The round trip -/

@[simp] theorem ifClear_true (i : Instr) : ifClear true i = .command i := rfl

theorem decode_encode (i : Instr) : decode (encode i) = .command i := by
  cases i with
  | crcInit => exact decode_crcInit 0#32
  | crcByte b => exact (decode_crcByte (0#24 ++ b)).trans (by simp)
  | crcCmp h => exact (decode_crcCmp (0#16 ++ h)).trans (by simp)
  | encNew adr fc => exact (decode_encNew (0#16 ++ adr ++ fc)).trans (by simp)
  | encU16 h => exact (decode_encU16 (0#16 ++ h)).trans (by simp)
  | encI32 w => exact decode_encI32 w
  | encFinal => exact decode_encFinal 0#32
  | encU8 b => exact (decode_encU8 (0#24 ++ b)).trans (by simp)

theorem encode_of_decode {cw : CmdWord} {i : Instr} (h : decode cw = .command i) : encode i = cw := by
  obtain ⟨_, hop, harg⟩ := fields_of_decode h
  rw [encode, hop, harg, wordOf_fields]

/-- Settles O3: command by command one way, and by the fields of the word the other way. -/
theorem decodeEncodeRoundTrip : Obligations.DecodeEncodeRoundTrip := by
  unfold Obligations.DecodeEncodeRoundTrip
  exact ⟨decode_encode, fun _ _ => encode_of_decode⟩

/-- Settles O4: each word is the encoding of its command. -/
theorem specWordsDecode : Obligations.SpecWordsDecode := by
  unfold Obligations.SpecWordsDecode
  exact ⟨decode_encode .crcInit, decode_encode (.crcByte 0x01#8), decode_encode (.crcCmp 0x0BC4#16),
    decode_encode (.encNew 0x01#8 0x03#8), decode_encode (.encU16 0xABCD#16), decode_encode (.encI32 0x12345678#32),
    decode_encode .encFinal, decode_encode (.encU8 0xEE#8)⟩

end Sys2Proof
end

section
/-! SUPPORT. The step that accepts an illegal word raises ILL and nothing else (R58 to R60); and the proofs about legal
and illegal words. -/

namespace Sys2Proof.Machine

theorem step_of_illegal {s : State} {cw : CmdWord} {rest : List HostEvent} {why : DecodeError} (ha : Accepts s cw rest)
    (hd : decode cw = .illegal why) :
    step s = .next { s with events := rest, err := s.err.record .ill (opOf cw) } :=
  (step_of_accepts ha).trans (issue_illegal hd _)

/-- Settles O2: `decode_cases` puts the verdict and the decoder side by side, and a step follows the decoder. -/
theorem decodeAcceptsExactlyLegalWords : Obligations.DecodeAcceptsExactlyLegalWords := by
  unfold Obligations.DecodeAcceptsExactlyLegalWords
  refine ⟨legal_iff_decode, fun _ _ hd => (fields_of_decode hd).2, fun s cw rest ha => ⟨fun hl => ?_, fun hl => ?_⟩⟩
  · obtain ⟨i, hd⟩ := (legal_iff_decode cw).mp hl
    exact ⟨i, hd, (step_of_accepts ha).trans (issue_command hd _)⟩
  · rcases decode_cases cw with ⟨hl', _⟩ | ⟨_, why, hd⟩
    · cases hl'.symm.trans hl
    · exact step_of_illegal ha hd

/-- Settles O6: the mask of a form reads the bits that the decoder tests. -/
theorem reservedBitsRaiseIll : Obligations.ReservedBitsRaiseIll := by
  unfold Obligations.ReservedBitsRaiseIll
  refine ⟨fun s cw rest form ha hform hset => ?_, by decide⟩
  have hd : decode cw = .illegal .reservedBits := decode_reservedBits hform (beq_eq_false_iff_ne.mpr hset)
  exact ⟨hd, step_of_illegal ha hd⟩

/-- Of the 256 opcodes all but the eight of the map are reserved (R59). -/
theorem reservedOpcodes_count :
    ((List.range 256).filter
      (fun n => decide (n ∉ [0x01, 0x02, 0x03, 0x10, 0x11, 0x12, 0x13, 0x14]))).length = 248 := by
  have hsub : [0x01, 0x02, 0x03, 0x10, 0x11, 0x12, 0x13, 0x14].toFinset ⊆ Finset.range 256 := by decide
  have hcard := Finset.card_sdiff_of_subset hsub
  rw [Finset.sdiff_eq_filter, Finset.card_range] at hcard
  simp only [List.mem_toFinset] at hcard
  exact hcard

/-- Settles O5: the decoder tests the opcode against the eight, and a word's opcode is its upper field. -/
theorem reservedOpcodeRaisesIll : Obligations.ReservedOpcodeRaisesIll := by
  unfold Obligations.ReservedOpcodeRaisesIll
  refine ⟨fun s cw rest ha hop => ?_, reservedOpcodes_count, fun arg => ⟨?_, ?_⟩, by decide⟩
  · have hd : decode cw = .illegal .reservedOpcode := decode_reservedOpcode hop
    exact ⟨hd, step_of_illegal ha hd⟩
  · exact decode_reservedOpcode (by rw [opOf_wordOf]; decide)
  · exact decode_reservedOpcode (by rw [opOf_wordOf]; decide)

end Sys2Proof.Machine
end

section
/-! SUPPORT. The assembler: when an operand fits, and the word of a command as a number (R63, R64); and the proofs about
the assembler. -/

namespace Sys2Proof

theorem fits_iff (width v : Nat) : fits width v = true ↔ v < 2 ^ width := decide_eq_true_iff

theorem fits_toNat {w : Nat} (v : BitVec w) : fits w v.toNat = true := (fits_iff w _).mpr v.isLt

theorem fitsI32_iff (w : Int) : fitsI32 w = true ↔ -2 ^ 31 ≤ w ∧ w < 2 ^ 32 := by
  rw [fitsI32, Bool.and_eq_true, decide_eq_true_iff, decide_eq_true_iff]

theorem assembleLine_of_wellFormed {l : AsmLine} (h : l.wellFormed = true) : assembleLine l = some l.expand := if_pos h

theorem assembleLine_of_not_wellFormed {l : AsmLine} (h : ¬ l.wellFormed = true) : assembleLine l = none := if_neg h

/-! ### The pseudo-instructions -/

theorem assembleLine_crcBlock (b0 : Byte) (bs : List Byte) :
    assembleLine (.crcBlock ((b0 :: bs).map BitVec.toNat)) =
      some (offerOf .crcInit :: (b0 :: bs).map (fun b => offerOf (.crcByte b))) := by
  have hwf : (AsmLine.crcBlock ((b0 :: bs).map BitVec.toNat)).wellFormed = true := by
    simp [AsmLine.wellFormed, fits_toNat]
  rw [assembleLine_of_wellFormed hwf, AsmLine.expand, List.map_map]
  simp

theorem assembleLine_crcCheck (r0 r1 : Byte) :
    assembleLine (.crcCheck r0.toNat r1.toNat) = some [offerOf (.crcCmp (r1 ++ r0))] := by
  have hwf : (AsmLine.crcCheck r0.toNat r1.toNat).wellFormed = true := by simp [AsmLine.wellFormed, fits_toNat]
  rw [assembleLine_of_wellFormed hwf, AsmLine.expand, ← BitVec.toNat_append, BitVec.ofNat_toNat, BitVec.setWidth_eq]

/-- Settles O56: every byte fits its field, and the two halves of the trailer join to the field of CRC_CMP. -/
theorem pseudoInstructionsExpand : Obligations.PseudoInstructionsExpand := by
  unfold Obligations.PseudoInstructionsExpand
  exact ⟨assembleLine_crcBlock, assembleLine_crcCheck⟩

/-! ### The table of commands -/

/-- A command's word as a number: the opcode above the 32 bits of the operand (R54). -/
theorem encode_eq_ofNat (i : Instr) : encode i = BitVec.ofNat 40 (2 ^ 32 * i.opcode.toNat + i.arg.toNat) := by
  rw [encode, wordOf, Nat.two_pow_add_eq_or_of_lt i.arg.isLt, Nat.mul_comm, ← Nat.shiftLeft_eq, ← BitVec.toNat_append,
    BitVec.ofNat_toNat, BitVec.setWidth_eq]

theorem toNat_zeros_append {n w : Nat} (v : BitVec w) : (0#n ++ v).toNat = v.toNat := by
  simp [BitVec.toNat_append]

/-- An operand that fits its field is the number the field holds. -/
theorem toNat_zeros_append_ofNat {n w k : Nat} (h : k < 2 ^ w) : (0#n ++ BitVec.ofNat w k).toNat = k := by
  rw [toNat_zeros_append, BitVec.toNat_ofNat, Nat.mod_eq_of_lt h]

theorem toNat_addressArg {adr fc : Nat} (ha : adr < 256) (hf : fc < 256) :
    (0#16 ++ BitVec.ofNat 8 adr ++ BitVec.ofNat 8 fc : Arg).toNat = 256 * adr + fc := by
  rw [BitVec.toNat_append, toNat_zeros_append_ofNat ha, BitVec.toNat_ofNat, Nat.mod_eq_of_lt hf, Nat.shiftLeft_eq,
    Nat.mul_comm, ← Nat.two_pow_add_eq_or_of_lt (i := 8) hf]

/-- A line for one command: its word where the operand fits, and an assembly error where it does not. -/
theorem assembleLine_command {l : AsmLine} {i : Instr} {n : Nat} {p : Prop} [Decidable p]
    (hexpand : l.expand = [offerOf i]) (hwf : l.wellFormed = true ↔ p)
    (hword : p → 2 ^ 32 * i.opcode.toNat + i.arg.toNat = n) :
    assembleLine l = if p then some [.offer (BitVec.ofNat 40 n) []] else none := by
  split
  · next hp => rw [assembleLine_of_wellFormed (hwf.mpr hp), hexpand, offerOf, encode_eq_ofNat, hword hp]
  · next hp => exact assembleLine_of_not_wellFormed (mt hwf.mp hp)

theorem assembleLine_crcByte (b : Nat) :
    assembleLine (.crcByte b) = if b < 256 then some [.offer (BitVec.ofNat 40 (0x0200000000 + b)) []] else none :=
  assembleLine_command rfl (fits_iff 8 b) fun hb => congrArg (0x0200000000 + ·) (toNat_zeros_append_ofNat hb)

theorem assembleLine_crcCmp (h : Nat) :
    assembleLine (.crcCmp h) = if h < 65536 then some [.offer (BitVec.ofNat 40 (0x0300000000 + h)) []] else none :=
  assembleLine_command rfl (fits_iff 16 h) fun hh => congrArg (0x0300000000 + ·) (toNat_zeros_append_ofNat hh)

theorem assembleLine_encNew (adr fc : Nat) :
    assembleLine (.encNew adr fc) =
      if adr < 256 ∧ fc < 256 then some [.offer (BitVec.ofNat 40 (0x1000000000 + 256 * adr + fc)) []] else none := by
  have hwf : (AsmLine.encNew adr fc).wellFormed = true ↔ adr < 256 ∧ fc < 256 := by
    rw [AsmLine.wellFormed, Bool.and_eq_true, fits_iff, fits_iff]
    exact Iff.rfl
  refine assembleLine_command rfl hwf fun ⟨ha, hf⟩ => ?_
  rw [Nat.add_assoc]
  exact congrArg (0x1000000000 + ·) (toNat_addressArg ha hf)

theorem assembleLine_encU16 (h : Nat) :
    assembleLine (.encU16 h) = if h < 65536 then some [.offer (BitVec.ofNat 40 (0x1100000000 + h)) []] else none :=
  assembleLine_command rfl (fits_iff 16 h) fun hh => congrArg (0x1100000000 + ·) (toNat_zeros_append_ofNat hh)

/-- The operand of `enc.i32` is taken modulo 2^32, as its two's-complement pattern is. -/
theorem assembleLine_encI32 (w : Int) :
    assembleLine (.encI32 w) =
      if -2 ^ 31 ≤ w ∧ w < 2 ^ 32 then some [.offer (BitVec.ofNat 40 (0x1200000000 + (w % 2 ^ 32).toNat)) []]
      else none :=
  assembleLine_command rfl (fitsI32_iff w) fun _ => congrArg (0x1200000000 + ·) (BitVec.toNat_ofInt w)

theorem assembleLine_encU8 (b : Nat) :
    assembleLine (.encU8 b) = if b < 256 then some [.offer (BitVec.ofNat 40 (0x1400000000 + b)) []] else none :=
  assembleLine_command rfl (fits_iff 8 b) fun hb => congrArg (0x1400000000 + ·) (toNat_zeros_append_ofNat hb)

theorem assembleLine_encI32_natCast {w : Nat} (h : w < 2 ^ 32) :
    assembleLine (.encI32 w) = some [.offer (BitVec.ofNat 40 (0x1200000000 + w)) []] := by
  have hw : ((w : Int) % 2 ^ 32).toNat = w := by omega
  rw [assembleLine_encI32, if_pos (by omega), hw]

theorem assembleLine_encI32_neg {n : Nat} (hpos : 1 ≤ n) (h : n ≤ 2 ^ 31) :
    assembleLine (.encI32 (-n)) = some [.offer (BitVec.ofNat 40 (0x1300000000 - n)) []] := by
  have hw : 0x1200000000 + (-(n : Int) % 2 ^ 32).toNat = 0x1300000000 - n := by omega
  rw [assembleLine_encI32, if_pos (by omega), hw]

theorem assembleLine_encI32_misfit {w : Int} (h : w < -2 ^ 31 ∨ 2 ^ 32 ≤ w) : assembleLine (.encI32 w) = none := by
  rw [assembleLine_encI32, if_neg (by omega)]

theorem assembleLine_cmd (w : Nat) :
    assembleLine (.cmd w) = if w < 2 ^ 40 then some [.offer (BitVec.ofNat 40 w) []] else none :=
  if_congr (fits_iff 40 w) rfl rfl

/-- Settles O57: row by row, the operand's number is added to the row's opcode. -/
theorem assemblerGivesTheTableWords : Obligations.AssemblerGivesTheTableWords := by
  unfold Obligations.AssemblerGivesTheTableWords
  exact ⟨assembleLine_of_wellFormed rfl, assembleLine_of_wellFormed rfl, assembleLine_crcByte, assembleLine_crcCmp,
    assembleLine_encNew, assembleLine_encU16, fun _ => assembleLine_encI32_natCast, fun _ => assembleLine_encI32_neg,
    fun _ => assembleLine_encI32_misfit, assembleLine_encU8, assembleLine_cmd⟩

end Sys2Proof
end

section
/-! SUPPORT. CrcStep as a linear and invertible map of the register (R68, R72, R73); and the proofs about the CRC
function. -/

namespace Sys2Proof.Machine

/-! ### The iterations -/

theorem crcShifts_eq_iterate (k : Nat) (c : Half) : crcShifts k c = crcShift^[k] c := by
  induction k generalizing c with
  | zero => rfl
  | succ k ih => rw [crcShifts, ih, Function.iterate_succ_apply]

/-- Settles O7: the model's loop is the iterate of its one iteration. -/
theorem crcStepIsEightConditionalShifts : Obligations.CrcStepIsEightConditionalShifts := by
  unfold Obligations.CrcStepIsEightConditionalShifts
  exact ⟨fun _ _ => crcShifts_eq_iterate 8 _, by decide⟩

/-! ### Linearity -/

theorem crcStep_xor (c d : Half) (a b : Byte) : crcStep (c ^^^ d) (a ^^^ b) = crcStep c a ^^^ crcStep d b := by
  have harg : (c ^^^ d) ^^^ (a ^^^ b).zeroExtend 16 = (c ^^^ a.zeroExtend 16) ^^^ (d ^^^ b.zeroExtend 16) := by
    rw [BitVec.zeroExtend_eq_setWidth, BitVec.setWidth_xor]
    ac_rfl
  rw [crcStep, harg, crcShifts_xor]
  rfl

/-- Settles O9: the XOR of the byte and the eight iterations are each linear. -/
theorem crcStepIsLinear : Obligations.CrcStepIsLinear := by
  unfold Obligations.CrcStepIsLinear
  exact crcStep_xor

/-- The register's own low byte moves the high byte down, and what the input byte differs from it enters through the
table. -/
theorem crcStep_eq_byteTable (c : Half) (b : Byte) :
    crcStep c b = (c >>> 8) ^^^ crcStep 0x0000#16 (c.extractLsb' 0 8 ^^^ b) := by
  have hb : b = c.extractLsb' 0 8 ^^^ (c.extractLsb' 0 8 ^^^ b) := by
    rw [← BitVec.xor_assoc, BitVec.xor_self, BitVec.zero_xor]
  calc crcStep c b = crcStep (c ^^^ 0x0000#16) (c.extractLsb' 0 8 ^^^ (c.extractLsb' 0 8 ^^^ b)) := by
        rw [← hb, BitVec.xor_zero]
    _ = (c >>> 8) ^^^ crcStep 0x0000#16 (c.extractLsb' 0 8 ^^^ b) := by rw [crcStep_xor, crcStep_low]

/-- Settles O8: by linearity the update splits into the register with its own low byte, and a table entry. -/
theorem crcStepAgreesWithByteTable : Obligations.CrcStepAgreesWithByteTable := by
  unfold Obligations.CrcStepAgreesWithByteTable
  exact crcStep_eq_byteTable

/-! ### Bijectivity -/

/-- The polynomial has bit 15 set and a shifted register has not, so an odd register does not become 0. -/
theorem eq_zero_of_crcShift_eq_zero {c : Half} (h : crcShift c = 0#16) : c = 0#16 := by
  have hlt := c.isLt
  cases h0 : c.getLsbD 0 with
  | true =>
    rw [crcShift_of_odd h0, BitVec.xor_eq_zero_iff] at h
    have hpoly : c.toNat / 2 = 0xA001 := by simpa [Nat.shiftRight_eq_div_pow] using congrArg BitVec.toNat h
    omega
  | false =>
    rw [crcShift_of_even h0] at h
    have hhalf : c.toNat / 2 = 0 := by simpa [Nat.shiftRight_eq_div_pow] using congrArg BitVec.toNat h
    have heven : c.toNat % 2 = 0 := by simpa [BitVec.getLsbD, Nat.testBit_zero] using h0
    exact BitVec.eq_of_toNat_eq (show c.toNat = 0 by omega)

theorem crcShift_injective : Function.Injective crcShift := fun c d h => by
  refine BitVec.xor_eq_zero_iff.mp (eq_zero_of_crcShift_eq_zero ?_)
  rw [crcShift_xor, h, BitVec.xor_self]

theorem crcShifts_injective (k : Nat) : Function.Injective (crcShifts k) := by
  rw [funext (crcShifts_eq_iterate k)]
  exact crcShift_injective.iterate k

theorem crcStep_injective (b : Byte) : Function.Injective (fun c => crcStep c b) := fun _ _ h =>
  (BitVec.xor_left_inj _).mp (crcShifts_injective 8 h)

theorem crcStep_bijective (b : Byte) : Function.Bijective (fun c => crcStep c b) :=
  Finite.injective_iff_bijective.mp (crcStep_injective b)

/-- Settles O10: an injective map of the 2^16 register values is a bijection. -/
theorem crcStepIsBijective : Obligations.CrcStepIsBijective := by
  unfold Obligations.CrcStepIsBijective
  exact crcStep_bijective

/-! ### The residue -/

/-- Settles O11: the low byte of the CRC leaves its high byte, which then cancels itself. -/
theorem crcResidueIsZero : Obligations.CrcResidueIsZero := by
  unfold Obligations.CrcResidueIsZero
  exact crc16_append_lowFirst

/-- The register that a trailer takes to 0 is the trailer's own value: it does, and CrcStep is injective. -/
theorem crcStep_trailer_eq_zero_iff (c : Half) (r0 r1 : Byte) :
    crcStep (crcStep c r0) r1 = 0x0000#16 ↔ c = r1 ++ r0 := by
  have hlow : (r1 ++ r0 : Half).extractLsb' 0 8 = r0 := BitVec.extractLsb'_append_eq_right
  have hhigh : (r1 ++ r0 : Half).extractLsb' 8 8 = r1 := BitVec.extractLsb'_append_eq_left
  have hzero : crcStep (crcStep (r1 ++ r0) r0) r1 = 0x0000#16 := by
    simpa [lowFirst, hlow, hhigh] using crcFrom_lowFirst (r1 ++ r0)
  rw [← hzero]
  exact ((crcStep_injective r1).comp (crcStep_injective r0)).eq_iff

end Sys2Proof.Machine
end

section
/-! SUPPORT. The CRC commands, from the word to the register and the flag (R69, R70, R72, R75); and the proofs about
them. -/

namespace Sys2Proof

/-- The decoder's test of reserved bits, as a proposition. -/
theorem ifClear_beq {w : Nat} (v u : BitVec w) (i : Instr) :
    ifClear (v == u) i = if v = u then .command i else .illegal .reservedBits := by
  simp only [ifClear, beq_iff_eq]

theorem decode_crcInit_ite (arg : Arg) :
    decode (wordOf 0x01#8 arg) = if arg = 0#32 then .command .crcInit else .illegal .reservedBits :=
  (decode_crcInit arg).trans (ifClear_beq _ _ _)

theorem decode_crcByte_ite (arg : Arg) :
    decode (wordOf 0x02#8 arg) =
      if arg.extractLsb' 8 24 = 0#24 then .command (.crcByte (arg.extractLsb' 0 8)) else .illegal .reservedBits :=
  (decode_crcByte arg).trans (ifClear_beq _ _ _)

theorem decode_crcCmp_ite (arg : Arg) :
    decode (wordOf 0x03#8 arg) =
      if arg.extractLsb' 16 16 = 0#16 then .command (.crcCmp (arg.extractLsb' 0 16)) else .illegal .reservedBits :=
  (decode_crcCmp arg).trans (ifClear_beq _ _ _)

end Sys2Proof

namespace Sys2Proof.Machine

/-- A word that decodes under a condition raises ILL where the condition fails. -/
theorem step_of_illegal_ite {s : State} {op : Opcode} {arg : Arg} {rest : List HostEvent} {p : Prop} [Decidable p]
    {d : Decoded} {why : DecodeError} (hd : decode (wordOf op arg) = if p then d else .illegal why)
    (ha : Accepts s (wordOf op arg) rest) (hp : ¬ p) :
    step s = .next { s with events := rest, err := s.err.record .ill op } := by
  rw [step_of_illegal ha (hd.trans (if_neg hp)), opOf_wordOf]

theorem exec_crcInit (s : State) : exec .crcInit s = .next { s with crc := 0xFFFF#16 } := rfl

theorem exec_crcByte (b : Byte) (s : State) : exec (.crcByte b) s = .next { s with crc := crcStep s.crc b } := rfl

theorem exec_crcCmp (h : Half) (s : State) : exec (.crcCmp h) s = .next { s with crcMatch := decide (s.crc = h) } :=
  rfl

theorem crc_of_exec_crcInit {s t : State} (h : exec .crcInit s = .next t) : t.crc = 0xFFFF#16 := by
  cases h
  rfl

/-- Settles O12: the fold over no byte is its start value, which is the value of reset and of CRC_INIT. -/
theorem emptySequenceCrc : Obligations.EmptySequenceCrc := by
  unfold Obligations.EmptySequenceCrc
  exact ⟨rfl, fun _ => rfl, fun _ _ h => ⟨_, step_assertRst h, rfl⟩, fun s => ⟨_, exec_crcInit s, rfl⟩⟩

/-- Settles O13: the second CRC_INIT writes the value that the first has left. -/
theorem crcInitSetsTheRegister : Obligations.CrcInitSetsTheRegister := by
  unfold Obligations.CrcInitSetsTheRegister
  refine ⟨decode_crcInit_ite, exec_crcInit, fun s t h => ?_,
    fun _ arg _ => step_of_illegal_ite (decode_crcInit_ite arg)⟩
  cases h
  rfl

/-- Settles O14: the decoder's test of the reserved bits, and the command's one write. -/
theorem crcByteFeedsOneByte : Obligations.CrcByteFeedsOneByte := by
  unfold Obligations.CrcByteFeedsOneByte
  exact ⟨decode_crcByte_ite, exec_crcByte, fun _ arg _ => step_of_illegal_ite (decode_crcByte_ite arg), by decide,
    by decide, by decide, by decide⟩

set_option maxRecDepth 20000 in
/-- R72's example: the CRC of a read request. -/
theorem crc16_readRequest : crc16 [0x01#8, 0x03#8, 0x00#8, 0x00#8, 0x00#8, 0x02#8] = 0x0BC4#16 := by decide

/-- Settles O15: the compare is the command's one write, and the residue's verdict is `crcStep_trailer_eq_zero_iff`. -/
theorem crcCmpSetsTheMatchFlag : Obligations.CrcCmpSetsTheMatchFlag := by
  unfold Obligations.CrcCmpSetsTheMatchFlag
  exact ⟨decode_crcCmp_ite, exec_crcCmp, fun _ arg _ => step_of_illegal_ite (decode_crcCmp_ite arg), crcStep_bijective,
    crcStep_trailer_eq_zero_iff, fun _ => rfl, fun _ _ => crc_of_exec_crcInit, crc16_readRequest, by decide⟩

end Sys2Proof.Machine
end

section
/-! SUPPORT. The CRC side and the frame side of the state do not see each other (R76); and the proof of it. -/

namespace Sys2Proof.Machine

theorem writeFrame_withCrc (i : Nat) {bs : List Byte} (hne : bs ≠ []) (len : Nat) (e : EncState) (s : State) (c : Half)
    (m : Bool) :
    writeFrame i bs len e { s with crc := c, crcMatch := m } =
      mapNext (fun t => { t with crc := c, crcMatch := m }) (writeFrame i bs len e s) := by
  rcases writeFrame_cases s i bs len e hne with ⟨h, he⟩ | ⟨h, he⟩
  · rw [he]; exact writeFrame_inside _ i bs len e h
  · rw [he]; exact writeFrame_outside _ i bs len e hne h

theorem appendPayload_withCrc (op : Opcode) (bs : List Byte) (s : State) (c : Half) (m : Bool) :
    appendPayload op bs { s with crc := c, crcMatch := m } =
      mapNext (fun t => { t with crc := c, crcMatch := m }) (appendPayload op bs s) := by
  rcases appendPayload_cases op bs s with ⟨h, he⟩ | ⟨h, hr, he⟩ | ⟨h, hr, he⟩
  · rw [he]; exact appendPayload_seq op bs h
  · rw [he]; exact appendPayload_ovf op h hr
  · rw [he]; exact appendPayload_room op h hr

theorem execEncFinal_withCrc (s : State) (c : Half) (m : Bool) :
    execEncFinal { s with crc := c, crcMatch := m } =
      mapNext (fun t => { t with crc := c, crcMatch := m }) (execEncFinal s) := by
  by_cases h : s.estate = .build
  · rw [execEncFinal_build h, execEncFinal_build (s := { s with crc := c, crcMatch := m }) h]
    exact writeFrame_withCrc _ (by simp [lowFirst]) _ _ s c m
  · rw [execEncFinal_outside_build h, execEncFinal_outside_build (s := { s with crc := c, crcMatch := m }) h]
    rfl

theorem exec_encoder_withCrc {i : Instr} (h : isCrcCommand i = false) (s : State) (c : Half) (m : Bool) :
    exec i { s with crc := c, crcMatch := m } = mapNext (fun t => { t with crc := c, crcMatch := m }) (exec i s) := by
  cases i with
  | crcInit => cases h
  | crcByte b => cases h
  | crcCmp v => cases h
  | encNew adr fc => exact writeFrame_withCrc 0 (by simp) 2 .build s c m
  | encU16 v => exact appendPayload_withCrc _ _ s c m
  | encI32 w => exact appendPayload_withCrc _ _ s c m
  | encFinal => exact execEncFinal_withCrc s c m
  | encU8 b => exact appendPayload_withCrc _ _ s c m

/-- The CRC commands, one by one. -/
theorem isCrcCommand_cases {i : Instr} (h : isCrcCommand i = true) :
    i = .crcInit ∨ (∃ b, i = .crcByte b) ∨ ∃ v, i = .crcCmp v := by
  cases i with
  | crcInit => exact .inl rfl
  | crcByte b => exact .inr (.inl ⟨b, rfl⟩)
  | crcCmp v => exact .inr (.inr ⟨v, rfl⟩)
  | _ => cases h

theorem exec_crc_frame {i : Instr} (h : isCrcCommand i = true) (s : State) :
    ∃ t, exec i s = .next t ∧ t = { s with crc := t.crc, crcMatch := t.crcMatch } := by
  rcases isCrcCommand_cases h with rfl | ⟨b, rfl⟩ | ⟨v, rfl⟩ <;> exact ⟨_, rfl, rfl⟩

theorem exec_crc_withFrame {i : Instr} (h : isCrcCommand i = true) (s : State) (m : Memory) (n : Nat) (e : EncState) :
    exec i { s with fbuf := m, flen := n, estate := e } =
      mapNext (fun t => { t with fbuf := m, flen := n, estate := e }) (exec i s) := by
  rcases isCrcCommand_cases h with rfl | ⟨b, rfl⟩ | ⟨v, rfl⟩ <;> rfl

/-- Settles O18: command by command, through what the shared operations of the encoder can do. -/
theorem crcAndEncoderAreIndependent : Obligations.CrcAndEncoderAreIndependent := by
  unfold Obligations.CrcAndEncoderAreIndependent
  exact ⟨fun _ s h => exec_crc_frame h s, fun _ s m n e h => exec_crc_withFrame h s m n e,
    fun _ s c m h => exec_encoder_withCrc h s c m⟩

end Sys2Proof.Machine
end

section
/-! SUPPORT. The register along a run: each event feeds it at most one byte (R71); and the proof about a run after
CRC_INIT. -/

namespace Sys2Proof.Machine

/-! ### The byte an offered word feeds -/

theorem fedBy_of_crcByte {cw : CmdWord} {b : Byte} (h : decode cw = .command (.crcByte b)) (ws : List CmdWord) :
    fedBy (.offer cw ws) = some b := by rw [fedBy, h]

theorem fedBy_of_other {cw : CmdWord} (h : ∀ b, decode cw ≠ .command (.crcByte b)) (ws : List CmdWord) :
    fedBy (.offer cw ws) = none := by
  rw [fedBy]
  split
  · next b hb => exact absurd hb (h b)
  · rfl

/-! ### One event -/

theorem Issued.cmdReady_eq {cw : CmdWord} {s t : State} (h : Issued cw s t) : t.cmdReady = s.cmdReady := by
  cases h with
  | command _ effect =>
    obtain ⟨_, hready, _⟩ := effect.keeps
    exact hready
  | illegal => rfl

/-- An accepted word other than CRC_INIT and CRC_BYTE leaves `crc` as it is. -/
theorem Issued.crc_eq {cw : CmdWord} {s t : State} (h : Issued cw s t) (hinit : decode cw ≠ .command .crcInit)
    (hbyte : ∀ b, decode cw ≠ .command (.crcByte b)) : t.crc = s.crc := by
  cases h with
  | command decoded effect =>
    rw [decoded] at hinit hbyte
    exact effect.crc_eq (fun hi => hinit (congrArg _ hi)) (fun b hi => hbyte b (congrArg _ hi))
  | illegal => rfl

theorem crc_of_issue {cw : CmdWord} {s t : State} (h : issue cw s = .next t) (hinit : decode cw ≠ .command .crcInit)
    (ws : List CmdWord) : t.crc = crcFrom s.crc (fedBy (.offer cw ws)).toList := by
  by_cases hb : ∃ b, decode cw = .command (.crcByte b)
  · obtain ⟨b, hd⟩ := hb
    rw [issue_command hd] at h
    cases h
    rw [fedBy_of_crcByte hd]
    rfl
  · rw [not_exists] at hb
    rw [fedBy_of_other hb]
    exact (issued_of_issue h).crc_eq hinit hb

/-- An event of R71: it keeps the block ready, and feeds the register at most one byte. -/
theorem onEvent_feeds {e : HostEvent} {s t : State} (h : onEvent e s = .next t) (hready : s.cmdReady = true)
    (hsteady : steady e = true) (hinit : offersCrcInit e = false) :
    t.cmdReady = true ∧ t.crc = crcFrom s.crc (fedBy e).toList := by
  cases e with
  | offer cw ws =>
    obtain rfl : ws = [] := List.isEmpty_iff.mp hsteady
    rw [onEvent_stable_offer cw s hready] at h
    exact ⟨(issued_of_issue h).cmdReady_eq.trans hready, crc_of_issue h (of_decide_eq_false hinit) []⟩
  | assertRst => cases hsteady
  | read p =>
    cases h
    rw [afterRead_eq]
    exact ⟨hready, rfl⟩
  | withdraw cw ws => cases h; exact ⟨hready, rfl⟩
  | idle => cases h; exact ⟨hready, rfl⟩
  | releaseRst => cases h; exact ⟨rfl, rfl⟩

/-! ### A run -/

theorem State.Inv.runEvents_feeds {s : State} (hs : s.Inv) (hready : s.cmdReady = true) {es : List HostEvent}
    (hes : ∀ e ∈ es, steady e = true ∧ offersCrcInit e = false) :
    ∃ t, runEvents es s = .next t ∧ t.crc = crcFrom s.crc (es.filterMap fedBy) := by
  induction es generalizing s with
  | nil => exact ⟨_, runEvents_nil s, rfl⟩
  | cons e es ih =>
    obtain ⟨⟨hsteady, hinit⟩, hrest⟩ := List.forall_mem_cons.mp hes
    obtain ⟨u, hu⟩ := (hs.withEvents es).onEvent_next e
    obtain ⟨huready, hucrc⟩ := onEvent_feeds hu hready hsteady hinit
    rw [runEvents_cons hu (events_of_onEvent hu), List.filterMap_eq_flatMap_toList, List.flatMap_cons, crcFrom_append,
      ← hucrc, ← List.filterMap_eq_flatMap_toList]
    exact ih ((hs.withEvents es).of_onEvent hu) huready hrest

/-- Settles O17: CRC_INIT leaves a good state whose register is the CRC of no byte, and each later event feeds it. -/
theorem crcOverSubRange : Obligations.CrcOverSubRange := by
  unfold Obligations.CrcOverSubRange
  intro s es hs hready hes
  have hinit : State.Inv { s with crc := 0xFFFF#16 } := hs.congr rfl rfl rfl rfl rfl rfl
  obtain ⟨t, hrun, hcrc⟩ := hinit.runEvents_feeds hready hes
  have hoffer : runEvents (offerOf .crcInit :: es) s = runEvents es { s with crc := 0xFFFF#16, events := es } :=
    runEvents_offer hready (decode_encode .crcInit) (exec_crcInit { s with events := es }) rfl
  exact ⟨t, hoffer.trans hrun, hcrc⟩

end Sys2Proof.Machine
end

section
/-! SUPPORT. The encoder commands as equations: the state each leads to, and the condition under which it runs or raises
its error (R79 to R84). -/

namespace Sys2Proof.Machine

/-! ### The states the encoder commands lead to -/

/-- `s` with bytes put at the end of its frame. -/
def appended (bs : List Byte) (s : State) : State :=
  { s with fbuf := Memory.putAll s.fbuf s.flen bs, flen := s.flen + bs.length }

/-- The state after ENC_NEW: the address and the function code on an empty frame. -/
def started (adr fc : Byte) (s : State) : State := appended [adr, fc] { s with flen := 0, estate := .build }

/-- The state after ENC_FINAL: the frame with its CRC, closed. -/
def finished (s : State) : State := { appended (lowFirst (crc16 (frameBytes s))) s with estate := .done }

theorem wroteBytes_appended (bs : List Byte) (s : State) : WroteBytes s.flen bs s (appended bs s) :=
  wroteBytes_putAll rfl rfl

@[simp] theorem frameBytes_appended (bs : List Byte) (s : State) : frameBytes (appended bs s) = frameBytes s ++ bs :=
  frameBytes_of_wrote rfl (wroteBytes_appended bs s)

theorem wroteBytes_started (adr fc : Byte) (s : State) : WroteBytes 0 [adr, fc] s (started adr fc s) :=
  wroteBytes_putAll rfl rfl

@[simp] theorem frameBytes_started (adr fc : Byte) (s : State) : frameBytes (started adr fc s) = [adr, fc] :=
  frameBytes_appended [adr, fc] { s with flen := 0, estate := .build }

theorem wroteBytes_finished (s : State) :
    WroteBytes s.flen (lowFirst (crc16 (frameBytes s))) s (finished s) :=
  wroteBytes_appended _ s

@[simp] theorem frameBytes_finished (s : State) :
    frameBytes (finished s) = frameBytes s ++ lowFirst (crc16 (frameBytes s)) :=
  frameBytes_appended _ s

/-! ### When each command runs, and when it raises its error -/

theorem exec_encNew_room (adr fc : Byte) {s : State} (hroom : 2 ≤ s.frameCap) :
    exec (.encNew adr fc) s = .next (started adr fc s) :=
  writeFrame_inside s 0 [adr, fc] 2 .build hroom

/-- ENC_NEW runs at every allowed capacity, whatever `estate` is. -/
theorem exec_encNew (adr fc : Byte) {s : State} (hcap : Config.frameCapOk s.frameCap = true) :
    exec (.encNew adr fc) s = .next (started adr fc s) := by
  obtain ⟨hmin, _⟩ := (frameCapOk_iff _).mp hcap
  exact exec_encNew_room adr fc (by omega)

theorem needsBuild_of_append {i : Instr} {bs : List Byte} (h : appendBytes i = some bs) : needsBuild i = true := by
  simp [needsBuild, h]

/-- SEQ: the appends and ENC_FINAL outside BUILD. -/
theorem exec_outside_build {i : Instr} (hi : needsBuild i = true) {s : State} (hs : s.estate ≠ .build) :
    exec i s = .next (raiseError .seq i.opcode s) := by
  cases hb : appendBytes i with
  | some bs => rw [exec_append hb, appendPayload_seq _ _ hs]
  | none =>
    obtain rfl : i = .encFinal := by simpa [needsBuild, hb] using hi
    exact execEncFinal_outside_build hs

theorem exec_append_full {i : Instr} {bs : List Byte} (hb : appendBytes i = some bs) {s : State}
    (hs : s.estate = .build) (hfull : s.frameCap < s.flen + bs.length + 2) :
    exec i s = .next (raiseError .ovf i.opcode s) := by
  rw [exec_append hb, appendPayload_ovf _ hs hfull]

theorem exec_append_room {i : Instr} {bs : List Byte} (hb : appendBytes i = some bs) {s : State}
    (hs : s.estate = .build) (hroom : s.flen + bs.length + 2 ≤ s.frameCap) : exec i s = .next (appended bs s) := by
  rw [exec_append hb, appendPayload_room _ hs hroom, ← hs]
  rfl

theorem exec_encFinal_room {s : State} (hs : s.estate = .build) (hroom : s.flen + 2 ≤ s.frameCap) :
    exec .encFinal s = .next (finished s) :=
  (execEncFinal_build hs).trans (writeFrame_inside s _ _ _ .done hroom)

/-- R80 writes the test with a difference, which is 0 for a capacity below 2; no append has room there either, because
it has a byte to add. -/
theorem room_iff {i : Instr} {bs : List Byte} (hb : appendBytes i = some bs) (s : State) :
    s.flen + bs.length ≤ s.frameCap - 2 ↔ s.flen + bs.length + 2 ≤ s.frameCap := by
  have hpos : 0 < bs.length := List.length_pos_iff.mpr (appendBytes_ne_nil hb)
  omega

theorem exec_append_ovf {i : Instr} {bs : List Byte} (hb : appendBytes i = some bs) {s : State}
    (hs : s.estate = .build) (hfull : s.flen + bs.length > s.frameCap - 2) :
    exec i s = .next { s with err := s.err.record .ovf i.opcode } :=
  exec_append_full hb hs (by have hroom := room_iff hb s; omega)

/-- An append with room writes its bytes at `flen`, moves `flen` past them, and changes nothing else. -/
theorem exec_append_writes {i : Instr} {bs : List Byte} (hb : appendBytes i = some bs) {s : State}
    (hs : s.estate = .build) (hroom : s.flen + bs.length ≤ s.frameCap - 2) :
    ∃ t, exec i s = .next t ∧ t = { s with fbuf := t.fbuf, flen := s.flen + bs.length } ∧ WroteBytes s.flen bs s t :=
  ⟨appended bs s, exec_append_room hb hs ((room_iff hb s).mp hroom), rfl, wroteBytes_appended bs s⟩

/-- Settles O25: with room the bytes are there; without it OVF leaves `flen` where it is, which the bytes would move. -/
theorem capacityDecidesTheAppend : Obligations.CapacityDecidesTheAppend := by
  unfold Obligations.CapacityDecidesTheAppend
  refine fun i bytes s hb hs => ⟨⟨fun ⟨t, ht, hlen, _⟩ => ?_, fun hroom => ?_⟩,
    fun hfull => exec_append_ovf hb hs (Nat.not_le.mp hfull)⟩
  · by_contra hfull
    have hpos : 0 < bytes.length := List.length_pos_iff.mpr (appendBytes_ne_nil hb)
    cases (exec_append_ovf hb hs (Nat.not_le.mp hfull)).symm.trans ht
    simp only at hlen
    omega
  · exact ⟨appended bytes s, exec_append_room hb hs ((room_iff hb s).mp hroom), rfl, wroteBytes_appended bytes s, rfl⟩

/-- Settles O26: no equation of ENC_NEW or of an append with room looks at a value. -/
theorem encoderValidatesNothing : Obligations.EncoderValidatesNothing := by
  unfold Obligations.EncoderValidatesNothing
  exact ⟨fun adr fc s hcap => ⟨_, exec_encNew adr fc hcap, frameBytes_started adr fc s, rfl⟩,
    fun i bytes s hb hs hroom =>
      ⟨_, exec_append_room hb hs ((room_iff hb s).mp hroom), frameBytes_appended bytes s, rfl⟩⟩

end Sys2Proof.Machine
end

section
/-! SUPPORT. The encoder commands, from the word to the frame (R79, R81 to R84); and the proofs about them. -/

namespace Sys2Proof

theorem decode_encNew_ite (arg : Arg) :
    decode (wordOf 0x10#8 arg) =
      if arg.extractLsb' 16 16 = 0#16 then .command (.encNew (arg.extractLsb' 8 8) (arg.extractLsb' 0 8))
      else .illegal .reservedBits :=
  (decode_encNew arg).trans (ifClear_beq _ _ _)

theorem decode_encU16_ite (arg : Arg) :
    decode (wordOf 0x11#8 arg) =
      if arg.extractLsb' 16 16 = 0#16 then .command (.encU16 (arg.extractLsb' 0 16)) else .illegal .reservedBits :=
  (decode_encU16 arg).trans (ifClear_beq _ _ _)

theorem decode_encFinal_ite (arg : Arg) :
    decode (wordOf 0x13#8 arg) = if arg = 0#32 then .command .encFinal else .illegal .reservedBits :=
  (decode_encFinal arg).trans (ifClear_beq _ _ _)

theorem decode_encU8_ite (arg : Arg) :
    decode (wordOf 0x14#8 arg) =
      if arg.extractLsb' 8 24 = 0#24 then .command (.encU8 (arg.extractLsb' 0 8)) else .illegal .reservedBits :=
  (decode_encU8 arg).trans (ifClear_beq _ _ _)

end Sys2Proof

namespace Sys2Proof.Machine

/-- Settles O19: ENC_NEW's equation, whose frame is the two bytes; from `flen = 2` on the port answers a draw. -/
theorem encNewStartsAFrame : Obligations.EncNewStartsAFrame := by
  unfold Obligations.EncNewStartsAFrame
  refine ⟨decode_encNew_ite, fun adr fc s hcap => ⟨_, exec_encNew adr fc hcap, rfl, ?_, ?_, ?_⟩,
    fun _ arg _ => step_of_illegal_ite (decode_encNew_ite arg)⟩
  · exact wroteBytes_started adr fc s
  · exact frameBytes_started adr fc s
  · exact fun _ => frameOut_above (s := started adr fc s)

/-- Settles O20: ENC_U16 is an append of two bytes. -/
theorem encU16AppendsBigEndian : Obligations.EncU16AppendsBigEndian := by
  unfold Obligations.EncU16AppendsBigEndian
  have hb : ∀ h, appendBytes (.encU16 h) = some (be16 h) := fun _ => rfl
  exact ⟨decode_encU16_ite, fun h _ => exec_outside_build (needsBuild_of_append (hb h)),
    fun h _ => exec_append_ovf (hb h), fun h _ => exec_append_writes (hb h),
    fun _ arg _ => step_of_illegal_ite (decode_encU16_ite arg)⟩

/-- Settles O21: ENC_I32 is an append of four bytes, and its form has no reserved bit. -/
theorem encI32AppendsBigEndian : Obligations.EncI32AppendsBigEndian := by
  unfold Obligations.EncI32AppendsBigEndian
  have hb : ∀ w, appendBytes (.encI32 w) = some (be32 w) := fun _ => rfl
  exact ⟨decode_encI32, fun w _ => exec_outside_build (needsBuild_of_append (hb w)),
    fun w _ => exec_append_ovf (hb w), fun w _ => exec_append_writes (hb w)⟩

/-- Settles O22: ENC_U8 is an append of one byte. -/
theorem encU8AppendsOneByte : Obligations.EncU8AppendsOneByte := by
  unfold Obligations.EncU8AppendsOneByte
  have hb : ∀ b, appendBytes (.encU8 b) = some [b] := fun _ => rfl
  exact ⟨decode_encU8_ite, fun b _ => exec_outside_build (needsBuild_of_append (hb b)),
    fun b _ => exec_append_ovf (hb b), fun b _ => exec_append_writes (hb b),
    fun _ arg _ => step_of_illegal_ite (decode_encU8_ite arg)⟩

/-- Settles O23: ENC_FINAL's equation in BUILD, and SEQ outside it. -/
theorem encFinalAppendsTheCrc : Obligations.EncFinalAppendsTheCrc := by
  unfold Obligations.EncFinalAppendsTheCrc
  exact ⟨decode_encFinal_ite, fun _ => exec_outside_build rfl,
    fun s hs hroom => ⟨_, exec_encFinal_room hs hroom, rfl, wroteBytes_finished s⟩,
    fun _ arg _ => step_of_illegal_ite (decode_encFinal_ite arg)⟩

end Sys2Proof.Machine
end

section
/-! SUPPORT. The table of encoder states (R78), and the proof that the commands follow it. -/

namespace Sys2Proof.Machine

theorem nextEstate_encNew (e : EncState) (adr fc : Byte) : nextEstate e (.encNew adr fc) = .build := by
  cases e <;> rfl

/-- Only ENC_NEW, and ENC_FINAL in BUILD, change `estate`. -/
theorem nextEstate_eq_self {e : EncState} {i : Instr} (hnew : isEncNew i = false)
    (hfinal : i = .encFinal → e ≠ .build) : nextEstate e i = e := by
  cases i with
  | encNew adr fc => cases hnew
  | encFinal =>
    cases e with
    | build => exact absurd rfl (hfinal rfl)
    | _ => rfl
  | _ => cases e <;> rfl

theorem isEncNew_of_needsBuild {i : Instr} (h : needsBuild i = true) : isEncNew i = false := by
  cases i with
  | encNew adr fc => cases h
  | _ => rfl

theorem nextEstate_append {i : Instr} {bs : List Byte} (h : appendBytes i = some bs) (e : EncState) :
    nextEstate e i = e :=
  nextEstate_eq_self (isEncNew_of_needsBuild (needsBuild_of_append h)) (by rintro rfl; cases h)

theorem Effect.estate_eq {i : Instr} {s t : State} (h : Effect i s t) : t.estate = nextEstate s.estate i := by
  cases h with
  | crcInit => exact (nextEstate_eq_self rfl (by simp)).symm
  | crcByte => exact (nextEstate_eq_self rfl (by simp)).symm
  | crcCmp => exact (nextEstate_eq_self rfl (by simp)).symm
  | encNew => exact (nextEstate_encNew s.estate _ _).symm
  | seq _ _ needs outside => exact (nextEstate_eq_self (isEncNew_of_needsBuild needs) fun _ => outside).symm
  | ovf _ _ _ bytes => exact (nextEstate_append bytes _).symm
  | append _ _ _ bytes build => rw [nextEstate_append bytes, build]
  | encFinal _ build => rw [build]; rfl

theorem decode_of_not_legal {cw : CmdWord} (h : legal cw = false) : ∃ why, decode cw = .illegal why := by
  rcases decode_cases cw with ⟨hl, _⟩ | ⟨_, hd⟩
  · cases hl.symm.trans h
  · exact hd

/-- Settles O28: read off the effects of the commands; SEQ and ILL change the error record alone. -/
theorem encoderStateTransitions : Obligations.EncoderStateTransitions := by
  unfold Obligations.EncoderStateTransitions
  refine ⟨fun _ _ _ h => (effect_of_exec h).estate_eq, fun _ _ hi hs => exec_outside_build hi hs,
    fun s cw rest t ha hl hstep => ?_⟩
  obtain ⟨why, hd⟩ := decode_of_not_legal hl
  cases (step_of_illegal ha hd).symm.trans hstep
  rfl

end Sys2Proof.Machine
end

section
/-! SUPPORT. Runs of encoder commands: the frame they build is the source's (R77, R89); and the proofs about it and
about the longest frame (R88). -/

namespace Sys2Proof.Machine

/-! ### The source's bytes are the commands' bytes -/

theorem extractLsb'_eq_ofNat_div {w : Nat} (v : BitVec w) (n k : Nat) :
    v.extractLsb' n k = BitVec.ofNat k (v.toNat / 2 ^ n) := by
  rw [← Nat.shiftRight_eq_div_pow]
  rfl

theorem appendBytes_command (f : PayloadField) : appendBytes f.command = some f.bytes := by
  cases f <;> simp [PayloadField.command, PayloadField.bytes, appendBytes, be16, be32, extractLsb'_eq_ofNat_div]

/-- Address, function code and payload: the source's frame before its CRC. -/
def sourceBody (adr fc : Byte) (fields : List PayloadField) : List Byte :=
  [adr, fc] ++ fields.flatMap PayloadField.bytes

theorem sourceFrame_eq (adr fc : Byte) (fields : List PayloadField) :
    sourceFrame adr fc fields = sourceBody adr fc fields ++ lowFirst (crc16 (sourceBody adr fc fields)) := by
  simp [sourceFrame, sourceBody, lowFirst, extractLsb'_eq_ofNat_div]

theorem sourceFrame_length (adr fc : Byte) (fields : List PayloadField) :
    (sourceFrame adr fc fields).length = (fields.flatMap PayloadField.bytes).length + 4 := by
  rw [sourceFrame_eq, sourceBody]
  simp only [List.length_append, List.length_cons, List.length_nil, lowFirst_length]
  omega

/-! ### Runs -/

/-- The step of a command that is offered and held stable is the command, whatever comes after it. -/
theorem runEvents_offerOf {i : Instr} {s t : State} (h : exec i s = .next t) (hr : s.cmdReady = true)
    (es : List HostEvent) : runEvents (offerOf i :: es) s = runEvents es t := by
  have hexec : exec i { s with events := es } = .next { t with events := es } := by rw [exec_withEvents, h]; rfl
  exact runEvents_offer (es := es) (t := { t with events := es }) hr (decode_encode i) hexec rfl

theorem Memory.putAll_append (m : Memory) (i : Nat) (xs ys : List Byte) :
    Memory.putAll (Memory.putAll m i xs) (i + xs.length) ys = Memory.putAll m i (xs ++ ys) := by
  induction xs generalizing m i with
  | nil => rfl
  | cons x xs ih =>
    rw [List.length_cons, ← Nat.succ_add_eq_add_succ]
    exact ih (Memory.put m i x) (i + 1)

/-- Two appends are one of the bytes of both. -/
theorem appended_appended (xs ys : List Byte) (s : State) : appended ys (appended xs s) = appended (xs ++ ys) s := by
  simp only [appended, Memory.putAll_append, List.length_append, Nat.add_assoc]

/-- Appends that fit put their fields' bytes at the end of the frame. -/
theorem runEvents_fields {s : State} (hr : s.cmdReady = true) (hs : s.estate = .build) (fields : List PayloadField)
    (hroom : s.flen + (fields.flatMap PayloadField.bytes).length + 2 ≤ s.frameCap) (es : List HostEvent) :
    runEvents (fields.map (fun f => offerOf f.command) ++ es) s =
      runEvents es (appended (fields.flatMap PayloadField.bytes) s) := by
  induction fields generalizing s with
  | nil => rfl
  | cons f fields ih =>
    rw [List.flatMap_cons, List.length_append] at hroom
    have hf : exec f.command s = .next (appended f.bytes s) :=
      exec_append_room (appendBytes_command f) hs (by omega)
    rw [List.map_cons, List.cons_append, runEvents_offerOf hf hr, List.flatMap_cons, ← appended_appended]
    exact ih hr hs (by simp only [appended]; omega)

/-- The state after `new(adr, fc)`, the fields' writes and `finalize()`. -/
def built (adr fc : Byte) (fields : List PayloadField) (s : State) : State :=
  finished (appended (fields.flatMap PayloadField.bytes) (started adr fc s))

theorem frameBytes_built (adr fc : Byte) (fields : List PayloadField) (s : State) :
    frameBytes (built adr fc fields s) = sourceFrame adr fc fields := by
  rw [built, frameBytes_finished, frameBytes_appended, frameBytes_started, sourceFrame_eq, sourceBody]

theorem runEvents_encoderCalls {s : State} (hcap : Config.frameCapOk s.frameCap = true) (hr : s.cmdReady = true)
    {adr fc : Byte} {fields : List PayloadField} (hfits : (sourceFrame adr fc fields).length ≤ s.frameCap) :
    runEvents (encoderCalls adr fc fields) s = .next { built adr fc fields s with events := [] } := by
  rw [sourceFrame_length] at hfits
  have hpayload : (started adr fc s).flen + (fields.flatMap PayloadField.bytes).length + 2 ≤ s.frameCap := by
    simp only [started, appended, List.length_cons, List.length_nil]; omega
  have hfinal : exec .encFinal (appended (fields.flatMap PayloadField.bytes) (started adr fc s)) =
      .next (built adr fc fields s) := exec_encFinal_room rfl hpayload
  rw [encoderCalls, runEvents_offerOf (exec_encNew adr fc hcap) hr,
    runEvents_fields (s := started adr fc s) hr rfl fields hpayload, runEvents_offerOf hfinal hr, runEvents_nil]

/-- Settles O29: ENC_NEW, the appends by induction on the fields, and ENC_FINAL; none raises an error. -/
theorem encoderBuildsTheSourceFrame : Obligations.EncoderBuildsTheSourceFrame := by
  unfold Obligations.EncoderBuildsTheSourceFrame
  exact fun s adr fc fields hcap hr hfits =>
    ⟨_, runEvents_encoderCalls hcap hr hfits, frameBytes_built adr fc fields s, rfl, rfl⟩

/-! ### The longest frame -/

/-- `n` payload bytes of 0. -/
def zeroFields (n : Nat) : List PayloadField := List.replicate n (.u8 0x00#8)

theorem zeroFields_bytes_length (n : Nat) : ((zeroFields n).flatMap PayloadField.bytes).length = n := by
  simp [zeroFields, PayloadField.bytes]

/-- Settles O27: the bounds are the invariant's, and `FRAME_CAP - 4` zero bytes make a frame of the whole capacity. -/
theorem lengthBoundsHoldAndAreReached : Obligations.LengthBoundsHoldAndAreReached := by
  unfold Obligations.LengthBoundsHoldAndAreReached
  refine ⟨fun s hs => ⟨hs.rule36.idle_len, hs.rule36.build_len, fun hd => ?_⟩,
    fun s t hs h => ((stepped_of_step h).inv hs).bounds.1, fun cap hcap => ?_⟩
  · obtain ⟨hlow, hhigh, _⟩ := hs.rule36.done_len hd
    exact ⟨hlow, hhigh⟩
  · obtain ⟨hmin, _⟩ := (frameCapOk_iff cap).mp hcap
    have hlen : (sourceFrame 0x00#8 0x00#8 (zeroFields (cap - 4))).length = cap := by
      rw [sourceFrame_length, zeroFields_bytes_length]; omega
    have hflen : (built 0x00#8 0x00#8 (zeroFields (cap - 4)) (State.resetOf cap)).flen = cap := by
      rw [← frameBytes_length, frameBytes_built, hlen]
    exact ⟨_, _, zeroFields (cap - 4), _, runEvents_encoderCalls hcap rfl hlen.le, rfl, hflen,
      zeroFields_bytes_length _⟩

end Sys2Proof.Machine
end

section
/-! SUPPORT. A finished frame: it verifies on the block (R87) and stays until ENC_NEW or reset (R86); and the proofs of
both. -/

namespace Sys2Proof.Machine

/-! ### The check -/

/-- CRC_BYTE after CRC_BYTE feeds the register. -/
theorem runEvents_crcBytes {s : State} (hr : s.cmdReady = true) (bytes : List Byte) (es : List HostEvent) :
    runEvents (bytes.map (fun b => offerOf (.crcByte b)) ++ es) s =
      runEvents es { s with crc := crcFrom s.crc bytes } := by
  induction bytes generalizing s with
  | nil => rfl
  | cons b bytes ih =>
    rw [List.map_cons, List.cons_append, runEvents_offerOf (exec_crcByte b s) hr]
    exact ih hr

theorem runEvents_crcCheckCalls {s : State} (hr : s.cmdReady = true) (bytes : List Byte) (h : Half) :
    runEvents (crcCheckCalls bytes h) s =
      .next { s with crc := crc16 bytes, crcMatch := decide (crc16 bytes = h), events := [] } := by
  calc runEvents (crcCheckCalls bytes h) s
      = runEvents (bytes.map (fun b => offerOf (.crcByte b)) ++ [offerOf (.crcCmp h)]) { s with crc := 0xFFFF#16 } :=
        runEvents_offerOf (exec_crcInit s) hr _
    _ = runEvents [offerOf (.crcCmp h)] { s with crc := crc16 bytes } :=
        runEvents_crcBytes (s := { s with crc := 0xFFFF#16 }) hr bytes _
    _ = .next { s with crc := crc16 bytes, crcMatch := decide (crc16 bytes = h), events := [] } :=
        runEvents_offerOf (exec_crcCmp h { s with crc := crc16 bytes }) hr []

/-- Settles O30: the invariant gives the frame as a body and its trailer. -/
theorem doneFrameVerifies : Obligations.DoneFrameVerifies := by
  unfold Obligations.DoneFrameVerifies
  intro s hs hd
  obtain ⟨body, _, hframe⟩ := hs.trailer hd
  have hzero : crc16 (frameBytes s) = 0x0000#16 := by rw [hframe, crc16_append_lowFirst]
  have hlen : s.flen = body.length + 2 := by rw [← frameBytes_length, hframe, List.length_append, lowFirst_length]
  have hbody : (frameBytes s).take (s.flen - 2) = body := by
    rw [hframe, hlen, Nat.add_sub_cancel, List.take_left]
  have hbyte : ∀ k (hk : k < (lowFirst (crc16 body)).length),
      memRead s (body.length + k) = (lowFirst (crc16 body))[k] := fun k hk => by
    rw [lowFirst_length] at hk
    rw [← frameBytes_getElem s _ (by rw [frameBytes_length]; omega)]
    simp [hframe]
  rw [hbody, show s.flen - 2 = body.length + 0 by omega, show s.flen - 1 = body.length + 1 by omega]
  exact ⟨hbyte 0 (by simp), hbyte 1 (by simp), hzero,
    fun hr => ⟨_, runEvents_crcCheckCalls hr _ _, decide_eq_true hzero⟩⟩

/-! ### The frame that stays -/

/-- `t` has the buffer, `flen` and `estate` of `s`, and its reset count, which names the unwritten bytes. -/
def SameFrame (s t : State) : Prop :=
  t.fbuf = s.fbuf ∧ t.flen = s.flen ∧ t.estate = s.estate ∧ t.resets = s.resets

theorem SameFrame.frameBytes_eq {s t : State} (h : SameFrame s t) : frameBytes t = frameBytes s := by
  obtain ⟨hbuf, hlen, _, hres⟩ := h
  exact frameBytes_congr hlen fun _ _ => by rw [memRead, memRead, hbuf, hres]

theorem Effect.sameFrame_of_done {i : Instr} {s t : State} (h : Effect i s t) (hd : s.estate = .done)
    (hnew : isEncNew i = false) : SameFrame s t := by
  cases h with
  | encNew => cases hnew
  | append _ _ _ _ build => cases hd.symm.trans build
  | encFinal _ build => cases hd.symm.trans build
  | _ => exact ⟨rfl, rfl, rfl, rfl⟩

theorem Issued.sameFrame_of_done {cw : CmdWord} {s t : State} (h : Issued cw s t) (hd : s.estate = .done)
    (hnew : ∀ i, decode cw = .command i → isEncNew i = false) : SameFrame s t := by
  cases h with
  | command decoded effect => exact effect.sameFrame_of_done hd (hnew _ decoded)
  | illegal => exact ⟨rfl, rfl, rfl, rfl⟩

theorem Stepped.sameFrame_of_done {s t : State} (h : Stepped s t) {e : HostEvent} {rest : List HostEvent}
    (he : s.events = e :: rest) (hd : s.estate = .done) (hreset : e ≠ .assertRst)
    (hnew : ∀ cw ∈ offered e, ∀ i, decode cw = .command i → isEncNew i = false) : SameFrame s t := by
  cases h with
  | reset _ next => cases he.symm.trans next; exact absurd rfl hreset
  | read p rest => rw [afterRead_eq]; exact ⟨rfl, rfl, rfl, rfl⟩
  | accepted _ _ _ next _ cw' among _ _ issued =>
    cases he.symm.trans next
    exact issued.sameFrame_of_done hd (hnew cw' among)
  | _ => exact ⟨rfl, rfl, rfl, rfl⟩

/-- Settles O31: in DONE only ENC_NEW and reset write the frame side. -/
theorem doneFrameStays : Obligations.DoneFrameStays := by
  unfold Obligations.DoneFrameStays
  intro s t e rest hd he hreset hnew hstep
  have hsame := (stepped_of_step hstep).sameFrame_of_done he hd hreset hnew
  have hframe := hsame.frameBytes_eq
  obtain ⟨hbuf, hlen, hst, _⟩ := hsame
  exact ⟨hbuf, hlen, hst, hframe⟩

end Sys2Proof.Machine
end

section
/-! SUPPORT. The bytes at and above `flen` are read by nothing (R90); and the proof of it. -/

namespace Sys2Proof.Machine

theorem exec_of_writesOutside {i : Instr} {s : State} (h : WritesOutside i s) :
    exec i s = .fault .outsideFrameBuffer := by
  rcases h with ⟨hnew, hcap⟩ | ⟨rfl, hs, hcap⟩
  · cases i with
    | encNew adr fc => exact exec_encNew_outside adr fc hcap
    | _ => cases hnew
  · exact exec_encFinal_outside hs hcap

/-- A command does the same to another buffer that shows the same frame: everything but the buffer is as in `t`, and the
frame it leaves is that of `t`. -/
theorem Effect.withBuffer {i : Instr} {s t : State} (h : Effect i s t) {m : Memory}
    (hm : frameBytes { s with fbuf := m } = frameBytes s) :
    ∃ u, exec i { s with fbuf := m } = .next u ∧ u = { t with fbuf := u.fbuf } ∧ frameBytes u = frameBytes t := by
  cases h with
  | crcInit => exact ⟨_, rfl, rfl, hm⟩
  | crcByte b => exact ⟨_, rfl, rfl, hm⟩
  | crcCmp v => exact ⟨_, rfl, rfl, hm⟩
  | encNew adr fc _ room =>
    exact ⟨_, exec_encNew_room adr fc room, rfl,
      (frameBytes_started adr fc { s with fbuf := m }).trans (frameBytes_started adr fc s).symm⟩
  | seq _ _ needs outside => exact ⟨_, exec_outside_build needs outside, rfl, hm⟩
  | ovf _ _ _ bytes build full => exact ⟨_, exec_append_full bytes build full, rfl, hm⟩
  | append _ _ bs bytes build room =>
    refine ⟨_, exec_append_room bytes build room, ?_, ?_⟩
    · rw [← build]; rfl
    · rw [frameBytes_appended, frameBytes_putAll, hm]
  | encFinal _ build room =>
    refine ⟨_, exec_encFinal_room build room, rfl, ?_⟩
    rw [frameBytes_finished, hm]
    exact (frameBytes_finished s).symm

theorem exec_withBuffer (i : Instr) {s : State} {m : Memory} (hm : frameBytes { s with fbuf := m } = frameBytes s) :
    mapNext (fun t => { t with fbuf := [] }) (exec i { s with fbuf := m }) =
      mapNext (fun t => { t with fbuf := [] }) (exec i s) := by
  rcases exec_ends i s with ⟨t, ht⟩ | ⟨hf, hw⟩
  · obtain ⟨u, hu, hrest, _⟩ := (effect_of_exec ht).withBuffer hm
    rw [hu, ht, mapNext, hrest]
    rfl
  · rw [exec_of_writesOutside (s := { s with fbuf := m }) hw, hf]

/-- Settles O32: a command reads the buffer only through the frame, and the FRAME port only below `flen`. -/
theorem staleBytesAreNotRead : Obligations.StaleBytesAreNotRead := by
  unfold Obligations.StaleBytesAreNotRead
  intro s m hread
  have hm : frameBytes { s with fbuf := m } = frameBytes s := frameBytes_congr rfl hread
  refine ⟨fun i => exec_withBuffer i hm, fun i t u ht hu => ?_, fun addr => ?_⟩
  · obtain ⟨u', hu', _, hframe⟩ := (effect_of_exec ht).withBuffer hm
    cases hu'.symm.trans hu
    exact hframe
  · rcases Nat.lt_or_ge addr.toNat s.flen with hlt | hge
    · rw [frameOut_below hlt, frameOut_below (s := { s with fbuf := m }) hlt, hread _ hlt]
    · rw [frameOut_above hge, frameOut_above (s := { s with fbuf := m }) hge]

end Sys2Proof.Machine
end

section
/-! SUPPORT. The error record and the STATUS word after an error is raised (R28, R96); and the proofs about a raise and
about the CRC mismatch, which raises nothing (R95). -/

namespace Sys2Proof.Machine

/-! ### The record -/

@[simp] theorem setSticky_eop (r : ErrorRecord) (e : ErrKind) : (r.setSticky e).eop = r.eop := by cases e <;> rfl

/-- The first error sets `ecause` and `eop`. -/
theorem record_of_no_cause {r : ErrorRecord} (h : r.cause = none) (e : ErrKind) (op : Opcode) :
    (r.record e op).cause = some e ∧ (r.record e op).eop = op := by
  rw [record_first h]
  exact ⟨rfl, rfl⟩

/-- A later error leaves both as they are. -/
theorem record_of_cause {r : ErrorRecord} (h : r.cause ≠ none) (e : ErrKind) (op : Opcode) :
    (r.record e op).cause = r.cause ∧ (r.record e op).eop = r.eop := by
  obtain ⟨k, hk⟩ := Option.ne_none_iff_exists'.mp h
  rw [record_later hk]
  exact ⟨setSticky_cause r e, setSticky_eop r e⟩

theorem record_sticky_self (r : ErrorRecord) (e : ErrKind) (op : Opcode) : (r.record e op).sticky e = true := by
  rw [record_sticky, decide_eq_true rfl, Bool.true_or]

theorem record_sticky_other (r : ErrorRecord) {e k : ErrKind} (h : k ≠ e) (op : Opcode) :
    (r.record e op).sticky k = r.sticky k := by
  rw [record_sticky, decide_eq_false h, Bool.false_or]

/-- Settles O34: the rules for the sticky bits, and for `ecause` and `eop` of a first and of a later error. -/
theorem raisingRecordsTheError : Obligations.RaisingRecordsTheError := by
  unfold Obligations.RaisingRecordsTheError
  exact fun e op s => ⟨rfl, record_sticky_self s.err e op, fun _ h => record_sticky_other s.err h op,
    fun h => record_of_no_cause h e op, fun h => record_of_cause h e op⟩

/-! ### The ports -/

/-- The bit of STATUS that shows an error's sticky bit (R28). -/
def ErrKind.statusBit : ErrKind → Nat
  | .ill => 4
  | .seq => 5
  | .ovf => 6

theorem statusOut_statusBit (s : State) (e : ErrKind) : (statusOut s).getLsbD e.statusBit = s.err.sticky e := by
  cases e with
  | ill => exact (statusOut_getLsbD_flag s (i := 4) (by decide) (by decide)).trans (by simp [ErrorRecord.sticky])
  | seq => exact (statusOut_getLsbD_flag s (i := 5) (by decide) (by decide)).trans (by simp [ErrorRecord.sticky])
  | ovf => exact (statusOut_getLsbD_flag s (i := 6) (by decide) (by decide)).trans (by simp [ErrorRecord.sticky])

theorem statusOut_match (s : State) : (statusOut s).getLsbD 2 = s.crcMatch :=
  (statusOut_getLsbD_flag s (i := 2) (by decide) (by decide)).trans (by simp)

/-- What the host reads after an error: its bit of STATUS, and ECAUSE and EOP where it is the first. -/
theorem ports_of_record {s t : State} {e : ErrKind} {op : Opcode} (h : t.err = s.err.record e op) :
    (statusOut t).getLsbD e.statusBit = true ∧
      (s.err.cause = none →
        (statusOut t).extractLsb' 8 2 = (causeCode (some e)).extractLsb' 0 2 ∧ eopOut t = op) := by
  refine ⟨?_, fun hc => ?_⟩
  · rw [statusOut_statusBit, h, record_sticky_self]
  · obtain ⟨hcause, heop⟩ := record_of_no_cause hc e op
    rw [statusOut_cause, eopOut, h, hcause]
    exact ⟨rfl, heop⟩

/-- Settles O16: the compare is CRC_CMP's one write, and STATUS shows it at bit 2. -/
theorem crcMismatchIsNoError : Obligations.CrcMismatchIsNoError := by
  unfold Obligations.CrcMismatchIsNoError
  intro s h hne
  have hexec : exec (.crcCmp h) s = .next { s with crcMatch := false } := by
    rw [exec_crcCmp, decide_eq_false hne]
  refine ⟨hexec, fun t ht => ?_⟩
  cases hexec.symm.trans ht
  exact ⟨statusOut_match _, rfl⟩

end Sys2Proof.Machine
end

section
/-! SUPPORT. The steps that change nothing, and those that never stop: with nothing offered the state stays (R107), and
from a good state every step answers a next state (R91); and the proofs of both. -/

namespace Sys2Proof.Machine

/-- Settles O46: the step with no event, and the step of an idle event. -/
theorem idleLeavesTheStateUnchanged : Obligations.IdleLeavesTheStateUnchanged := by
  unfold Obligations.IdleLeavesTheStateUnchanged
  exact ⟨fun _ => step_of_no_events, fun _ _ => step_of_events⟩

theorem State.Inv.step_next {s : State} (hs : s.Inv) : ∃ t, step s = .next t := by
  cases he : s.events with
  | nil => exact ⟨s, step_of_no_events he⟩
  | cons e rest =>
    rw [step_of_events he]
    exact (hs.withEvents rest).onEvent_next e

/-- Settles O52: no command of a good state writes outside the buffer, and no other event can stop. -/
theorem goodStatesNeverStop : Obligations.GoodStatesNeverStop := by
  unfold Obligations.GoodStatesNeverStop
  exact fun _ => State.Inv.step_next

end Sys2Proof.Machine
end

section
/-! SUPPORT. When a command or a word raises an error, and that it then does nothing else (R92 to R94, R97, R98); and
the proofs about the three errors. -/

namespace Sys2Proof.Machine

/-! ### The errors of a command -/

/-- The command raises this error in this state: SEQ outside BUILD (R93), OVF in BUILD without room (R94). -/
inductive Raises (i : Instr) (s : State) : ErrKind → Prop where
  | seq (needs : needsBuild i = true) (outside : s.estate ≠ .build) : Raises i s .seq
  | ovf (bs : List Byte) (bytes : appendBytes i = some bs) (build : s.estate = .build)
      (full : s.flen + bs.length > s.frameCap - 2) : Raises i s .ovf

theorem exec_of_raises {i : Instr} {s : State} {e : ErrKind} (h : Raises i s e) :
    exec i s = .next (raiseError e i.opcode s) := by
  cases h with
  | seq needs outside => exact exec_outside_build needs outside
  | ovf bs bytes build full => exact exec_append_ovf bytes build full

/-- A command keeps the error record, or records an error that it raises. -/
theorem Effect.err_cases {i : Instr} {s t : State} (h : Effect i s t) :
    t.err = s.err ∨ ∃ e, Raises i s e ∧ t.err = s.err.record e i.opcode := by
  cases h with
  | seq _ _ needs outside => exact .inr ⟨.seq, .seq needs outside, rfl⟩
  | ovf _ _ bs bytes build full =>
    have hroom := room_iff bytes s
    exact .inr ⟨.ovf, .ovf bs bytes build (by omega), rfl⟩
  | _ => exact .inl rfl

/-- A sticky bit rises only by the error it stands for. -/
theorem Effect.raises_of_rise {i : Instr} {s t : State} (h : Effect i s t) {k : ErrKind}
    (hs : s.err.sticky k = false) (ht : t.err.sticky k = true) : Raises i s k := by
  rcases h.err_cases with he | ⟨e, hraise, he⟩
  · rw [he, hs] at ht
    cases ht
  · by_cases hk : k = e
    · exact hk ▸ hraise
    · rw [he, record_sticky_other _ hk, hs] at ht
      cases ht

/-! ### The error of a word -/

theorem errorOf_illegal {cw : CmdWord} {why : DecodeError} (h : decode cw = .illegal why) (s : State) :
    errorOf cw s = some .ill := by rw [errorOf, h]

/-- `errorOf` reads the order of R97: SEQ where BUILD is missing, and OVF only in BUILD. -/
theorem errorOf_command {cw : CmdWord} {i : Instr} (h : decode cw = .command i) (s : State) (e : ErrKind) :
    errorOf cw s = some e ↔ Raises i s e := by
  rw [errorOf, h]
  constructor
  · intro he
    simp only at he
    split at he
    · next hseq =>
      cases he
      obtain ⟨needs, outside⟩ := Bool.and_eq_true_iff.mp hseq
      exact .seq needs (of_decide_eq_true outside)
    · next hseq =>
      split at he
      · next bs bytes =>
        split at he
        · cases he
        · next full =>
          cases he
          refine .ovf bs bytes ?_ (Nat.not_le.mp full)
          by_contra outside
          exact hseq (by simp [needsBuild_of_append bytes, outside])
      · cases he
  · intro hraise
    cases hraise with
    | seq needs outside => exact if_pos (by simp [needs, outside])
    | ovf bs bytes build full => simp [build, bytes, Nat.not_le.mpr full]

/-- A legal word never raises ILL, and an illegal one always does. -/
theorem errorOf_ill_iff (cw : CmdWord) (s : State) : legal cw = false ↔ errorOf cw s = some .ill := by
  rcases decode_cases cw with ⟨hl, i, hd, _⟩ | ⟨hl, why, hd⟩
  · rw [errorOf_command hd, hl]
    exact ⟨nofun, nofun⟩
  · exact iff_of_true hl (errorOf_illegal hd s)

/-- A word that raises an error does nothing else. -/
theorem issue_of_errorOf {cw : CmdWord} {s : State} {e : ErrKind} (h : errorOf cw s = some e) :
    issue cw s = .next (raiseError e (opOf cw) s) := by
  cases hd : decode cw with
  | command i =>
    rw [issue_command hd, exec_of_raises ((errorOf_command hd s e).mp h), (fields_of_decode hd).2.1]
  | illegal why =>
    cases (errorOf_illegal hd s).symm.trans h
    exact issue_illegal hd s

/-- The error record after an accepted word. -/
theorem Issued.err_of_no_error {cw : CmdWord} {s t : State} (h : Issued cw s t) (he : errorOf cw s = none) :
    t.err = s.err := by
  cases h with
  | command hd effect =>
    rcases effect.err_cases with herr | ⟨e, hraise, _⟩
    · exact herr
    · cases he.symm.trans ((errorOf_command hd s e).mpr hraise)
  | illegal _ hd => cases he.symm.trans (errorOf_illegal hd s)

theorem step_of_errorOf {s : State} {cw : CmdWord} {rest : List HostEvent} {e : ErrKind} (ha : Accepts s cw rest)
    (he : errorOf cw s = some e) :
    step s = .next { s with events := rest, err := s.err.record e (opOf cw) } :=
  (step_of_accepts ha).trans (issue_of_errorOf (s := { s with events := rest }) he)

/-- Settles O39: an accepted word with an error only records it. -/
theorem errorsArePrecise : Obligations.ErrorsArePrecise := by
  unfold Obligations.ErrorsArePrecise
  exact fun _ _ _ _ => step_of_errorOf

/-- Settles O38: the word's error is recorded if there is one, and else the record stays. -/
theorem oneErrorInFixedOrder : Obligations.OneErrorInFixedOrder := by
  unfold Obligations.OneErrorInFixedOrder
  intro s cw rest t ha hstep
  cases he : errorOf cw s with
  | some e =>
    cases (step_of_errorOf ha he).symm.trans hstep
    rfl
  | none => exact (issued_of_issue ((step_of_accepts ha).symm.trans hstep)).err_of_no_error he

/-! ### ILL, SEQ and OVF -/

theorem legal_false_of_ill_rise {s t : State} {cw : CmdWord} (h : Issued cw s t) (hs : s.err.ill = false)
    (ht : t.err.ill = true) : legal cw = false := by
  cases h with
  | command _ effect => cases effect.raises_of_rise (k := .ill) hs ht
  | illegal _ hd => exact (errorOf_ill_iff cw s).mpr (errorOf_illegal hd s)

/-- Settles O35: `errorOf_ill_iff` is the verdict, and no command raises ILL. -/
theorem illIsRaisedByIllegalWords : Obligations.IllIsRaisedByIllegalWords := by
  unfold Obligations.IllIsRaisedByIllegalWords
  intro s cw rest ha
  refine ⟨errorOf_ill_iff cw s, fun hl => ?_, fun t hstep hs ht => ?_⟩
  · exact ⟨_, step_of_errorOf ha ((errorOf_ill_iff cw s).mp hl), rfl, ports_of_record (s := s) (e := .ill) rfl⟩
  · exact legal_false_of_ill_rise (issued_of_issue ((step_of_accepts ha).symm.trans hstep)) hs ht

/-- The commands that are legal in BUILD only, one by one. -/
theorem needsBuild_cases {i : Instr} (h : needsBuild i = true) :
    (∃ v, i = .encU16 v) ∨ (∃ w, i = .encI32 w) ∨ (∃ b, i = .encU8 b) ∨ i = .encFinal := by
  cases i with
  | encU16 v => exact .inl ⟨v, rfl⟩
  | encI32 w => exact .inr (.inl ⟨w, rfl⟩)
  | encU8 b => exact .inr (.inr (.inl ⟨b, rfl⟩))
  | encFinal => exact .inr (.inr (.inr rfl))
  | _ => cases h

/-- Settles O36: SEQ is the error of the commands that need BUILD, outside it, and the only way its bit rises. -/
theorem seqIsRaisedOutsideBuild : Obligations.SeqIsRaisedOutsideBuild := by
  unfold Obligations.SeqIsRaisedOutsideBuild
  refine ⟨fun i s needs outside => ?_, fun i s t ht hs hrise => ?_⟩
  · exact ⟨_, exec_of_raises (.seq needs outside), rfl, ports_of_record (s := s) (e := .seq) rfl⟩
  · cases (effect_of_exec ht).raises_of_rise (k := .seq) hs hrise with
    | seq needs outside => exact ⟨needsBuild_cases needs, outside⟩

/-- Settles O37: OVF is the error of an append in BUILD without room, and the only way its bit rises. -/
theorem ovfIsRaisedWithoutRoom : Obligations.OvfIsRaisedWithoutRoom := by
  unfold Obligations.OvfIsRaisedWithoutRoom
  refine ⟨fun i bs s bytes build full => ?_, fun i s t ht hs hrise => ?_⟩
  · exact ⟨_, exec_of_raises (.ovf bs bytes build full), rfl, ports_of_record (s := s) (e := .ovf) rfl⟩
  · cases (effect_of_exec ht).raises_of_rise (k := .ovf) hs hrise with
    | ovf bs bytes build full => exact ⟨bs, bytes, build, full⟩

end Sys2Proof.Machine
end

section
/-! SUPPORT. What an event keeps of the error record, and that no command reads it (R99); and the proof that only reset
clears it. -/

namespace Sys2Proof.Machine

/-! ### What is kept -/

/-- `r'` has every sticky bit of `r`, and the first error of `r` if there is one. -/
def KeepsErrors (r r' : ErrorRecord) : Prop :=
  (∀ k, r.sticky k = true → r'.sticky k = true) ∧ (r.cause ≠ none → r'.cause = r.cause ∧ r'.eop = r.eop)

theorem keepsErrors_refl (r : ErrorRecord) : KeepsErrors r r := ⟨fun _ => id, fun _ => ⟨rfl, rfl⟩⟩

theorem keepsErrors_record (r : ErrorRecord) (e : ErrKind) (op : Opcode) : KeepsErrors r (r.record e op) :=
  ⟨fun k hk => by rw [record_sticky, hk, Bool.or_true], fun hc => record_of_cause hc e op⟩

theorem Issued.keepsErrors {cw : CmdWord} {s t : State} (h : Issued cw s t) : KeepsErrors s.err t.err := by
  cases h with
  | command _ effect =>
    rcases effect.err_cases with he | ⟨e, _, he⟩
    · exact he ▸ keepsErrors_refl s.err
    · exact he ▸ keepsErrors_record s.err e _
  | illegal => exact keepsErrors_record s.err .ill _

theorem Stepped.keepsErrors_or_reset {s t : State} (h : Stepped s t) :
    KeepsErrors s.err t.err ∨ ∃ rest, s.events = .assertRst :: rest := by
  cases h with
  | reset rest next => exact .inr ⟨rest, next⟩
  | read => rw [afterRead_eq]; exact .inl (keepsErrors_refl s.err)
  | accepted _ _ _ _ _ _ _ _ _ issued => exact .inl issued.keepsErrors
  | _ => exact .inl (keepsErrors_refl s.err)

/-! ### What is not read -/

/-- A command does the same with another error record, but for the record. -/
theorem Effect.withErr {i : Instr} {s t : State} (h : Effect i s t) (r : ErrorRecord) :
    ∃ u, exec i { s with err := r } = .next u ∧ { u with err := .clear } = { t with err := .clear } := by
  cases h with
  | crcInit => exact ⟨_, rfl, rfl⟩
  | crcByte b => exact ⟨_, rfl, rfl⟩
  | crcCmp v => exact ⟨_, rfl, rfl⟩
  | encNew adr fc _ room => exact ⟨_, exec_encNew_room adr fc room, rfl⟩
  | seq _ _ needs outside => exact ⟨_, exec_outside_build needs outside, rfl⟩
  | ovf _ _ _ bytes build full => exact ⟨_, exec_append_full bytes build full, rfl⟩
  | append _ _ bs bytes build room => exact ⟨_, exec_append_room bytes build room, by rw [← build]; rfl⟩
  | encFinal _ build room => exact ⟨_, exec_encFinal_room build room, rfl⟩

theorem exec_withErr (i : Instr) (s : State) (r : ErrorRecord) :
    mapNext (fun t => { t with err := .clear }) (exec i { s with err := r }) =
      mapNext (fun t => { t with err := .clear }) (exec i s) := by
  rcases exec_ends i s with ⟨t, ht⟩ | ⟨hf, hw⟩
  · obtain ⟨u, hu, hrest⟩ := (effect_of_exec ht).withErr r
    rw [hu, ht]
    exact congrArg Host.Outcome.next hrest
  · rw [exec_of_writesOutside (s := { s with err := r }) hw, hf]

/-- Settles O40: every event but reset keeps the record's errors, reset clears them, and no command looks at them. -/
theorem onlyResetClearsTheErrorRecord : Obligations.OnlyResetClearsTheErrorRecord := by
  unfold Obligations.OnlyResetClearsTheErrorRecord
  refine ⟨fun s t e rest hev hne hstep => ?_, fun _ _ hev => ⟨_, step_assertRst hev, rfl⟩, exec_withErr⟩
  refine (stepped_of_step hstep).keepsErrors_or_reset.resolve_right fun ⟨rest', hev'⟩ => hne ?_
  cases hev.symm.trans hev'
  rfl

end Sys2Proof.Machine
end

section
/-! SUPPORT. What an offer does, to a block that is ready and to one in reset (R16, R109, R114); and the proofs about
offers. -/

namespace Sys2Proof.Machine

/-- A block that is ready performs the word accepted, whether the host held it stable or changed it. -/
theorem onEvent_offer_ready (cw : CmdWord) (changed : List CmdWord) {s : State} (h : s.cmdReady = true) :
    onEvent (.offer cw changed) s =
      issue (acceptedWord cw changed s.draws) { s with draws := drawsAfterOffer changed s.draws } := if_pos h

/-- A word offered in reset has no effect. -/
theorem onEvent_offer_inReset (cw : CmdWord) (changed : List CmdWord) {s : State} (h : s.cmdReady = false) :
    onEvent (.offer cw changed) s = .next s := if_neg (by simp [h])

/-- Settles O47: the word accepted is among those offered, whatever the draw, and a stable offer takes no draw. -/
theorem oneOfferedWordIsAccepted : Obligations.OneOfferedWordIsAccepted := by
  unfold Obligations.OneOfferedWordIsAccepted
  refine ⟨fun s cw changed rest hev hready => ?_, fun _ _ _ h => step_of_accepts h, fun _ _ _ _ hev => step_of_events hev⟩
  exact ⟨acceptedWord cw changed s.draws, acceptedWord_mem cw changed s.draws, drawsAfterOffer changed s.draws,
    (step_of_events hev).trans (onEvent_offer_ready cw changed hready)⟩

/-- A reset with an offer in it leads where a reset without one leads: `rst` drives `cmd_ready` to 0 first. -/
theorem runEvents_reset_offer (cw : CmdWord) (changed : List CmdWord) (s : State) (es : List HostEvent) :
    runEvents (.assertRst :: .offer cw changed :: es) s = runEvents es (applyReset { s with events := es }) :=
  calc runEvents (.assertRst :: .offer cw changed :: es) s
    _ = runEvents (.offer cw changed :: es) (applyReset { s with events := .offer cw changed :: es }) :=
      runEvents_cons rfl rfl
    _ = runEvents es (applyReset { s with events := es }) := runEvents_cons (onEvent_offer_inReset cw changed rfl) rfl

/-- Releasing `rst` after a reset gives the state of R35, with the model's own counts. -/
theorem runEvents_releaseRst_applyReset (s : State) :
    runEvents [.releaseRst] (applyReset s) =
      .next { State.resetOf s.frameCap with draws := s.draws, resets := s.resets + 1 } :=
  calc runEvents [.releaseRst] (applyReset s)
    _ = runEvents [] { applyReset s with events := [], cmdReady := true } := runEvents_cons rfl rfl
    _ = .next { State.resetOf s.frameCap with draws := s.draws, resets := s.resets + 1 } := runEvents_nil _

/-- Settles O49: a word offered in reset has no effect, so only the reset values are left when `rst` is released. -/
theorem noCommandIsAcceptedInReset : Obligations.NoCommandIsAcceptedInReset := by
  unfold Obligations.NoCommandIsAcceptedInReset
  exact ⟨fun _ cw changed _ hev hready => (step_of_events hev).trans (onEvent_offer_inReset cw changed hready),
    fun s cw changed => (runEvents_reset_offer cw changed s [.releaseRst]).trans (runEvents_releaseRst_applyReset _)⟩

end Sys2Proof.Machine
end
